-- ==== Sys2Proof/Word.lean ====
section
/-! DEFINITION. The two word types of the block: a data byte (R9) and a command word (R10, R60). -/

namespace Sys2Proof

/-- One input or output byte: 8 bits, unsigned (spec/00_scope.md R9, R12). -/
abbrev Byte := BitVec 8

/-- One command word: 9 bits, bit 8 the LAST flag and bits 7..0 the input byte (spec/00_scope.md R10,
spec/30_encoding.md R60, R64). -/
abbrev CmdWord := BitVec 9

end Sys2Proof
end

