-- ==== Sys2Proof/Config.lean ====
section
/-! DEFINITION. The one open choice of the design: ESC_UNITS, a parameter in the set 1, 2
(spec/00_scope.md R8). The value this hardware takes stands in Machine/Params.lean. -/

namespace Sys2Proof

/-- ESC_UNITS: how many column units one escaped byte counts (R8). A model may take it as a parameter in the
set 1, 2; no other value exists. -/
inductive EscUnits where
  | one
  | two
  deriving DecidableEq, Repr

/-- The number of column units that the parameter stands for. -/
def EscUnits.count : EscUnits → Nat
  | .one => 1
  | .two => 2

end Sys2Proof
end

