-- ==== Sys2Proof/Machine/Params.lean ====
section
/-! DEFINITION. The fixed constants of the block (spec/00_scope.md R7), the value sets of the escape rule (R15),
and the value this hardware gives ESC_UNITS (R8). No register holds them and nothing changes them. -/

namespace Sys2Proof.Machine

/-- LINE_LENGTH: the column at or past which a line is broken (R7; spec/40_encode.md R86). -/
def lineLength : Nat := 128

/-- SHIFT: the additive offset, modulo 256 (R7). -/
def shift : Byte := 42#8

/-- ESCAPE_BYTE, the escape marker (R7). -/
def escapeByte : Byte := 61#8

/-- ESCAPE_SHIFT: added, modulo 256, to a shifted value that is escaped (R7). -/
def escapeShift : Byte := 64#8

/-- CR, the first byte of a line break (R7). -/
def cr : Byte := 13#8

/-- LF, the second byte of a line break (R7). -/
def lf : Byte := 10#8

/-- ALWAYS_ESC: the shifted values that are always escaped (R15). -/
def alwaysEsc : List Byte := [0#8, 10#8, 13#8, 61#8]

/-- WS_ESC: tab and space (R15). -/
def wsEsc : List Byte := [9#8, 32#8]

/-- DOT_ESC: dot (R15). -/
def dotEsc : List Byte := [46#8]

/-- ESC_UNITS of this hardware: 2 (R8; spec/92_eei_decisions.md D3; spec/90_conflicts.md C1; UNVERIFIED against any
real block, log entry 8). -/
def escUnits : EscUnits := .two

/-- The identity string that the spec gives the block; it spells the constants above
(R2; spec/92_eei_decisions.md D20). No command reads it. -/
def identity : String := "yenc-enc-L128-S42-E61-X64-U2"

end Sys2Proof.Machine
end

