-- ==== Sys2Proof/Machine/Flags.lean ====
section
/-! DEFINITION. The two conditions a command computes. The block has no flag register: both are made and consumed
inside one step (spec/10_state.md R34). -/

namespace Sys2Proof.Machine

/-- NeedsEscape: whether the shifted value `s` is escaped when COL is `col`, by the escaping rule table alone.
It reads neither the last flag nor any later byte (spec/40_encode.md R81, R82, R83). -/
def needsEscape (s col : Byte) : Bool :=
  if alwaysEsc.contains s then true
  else if wsEsc.contains s then decide (col.toNat = 0) || decide (col.toNat = lineLength - 1)
  else if dotEsc.contains s then decide (col.toNat = 0)
  else false

/-- Whether a line break follows: the new column `c` has reached LINE_LENGTH, or the command is the last of its
call (spec/40_encode.md R86). `c` is an unbounded integer, as R12 has comparisons (spec/10_state.md R23;
DEDUCED for a COL no run reaches, log entry 10). -/
def breaksLine (c : Nat) (last : Bool) : Bool := decide (lineLength ≤ c) || last

end Sys2Proof.Machine
end

