-- ==== Sys2Proof/Machine/Operands.lean ====
section
/-! DEFINITION. The operand forms of the two commands: the shifted value and the escaped value of the input byte.
The operand itself is the DATA field, pulled out by the decoder (spec/30_encoding.md R61). -/

namespace Sys2Proof.Machine

/-- The shifted value s = (b + SHIFT) mod 256; the sum wraps (spec/40_encode.md R80). -/
def shifted (b : Byte) : Byte := b + shift

/-- The escaped value v = (s + ESCAPE_SHIFT) mod 256 (spec/40_encode.md R84). -/
def escapedValue (s : Byte) : Byte := s + escapeShift

end Sys2Proof.Machine
end

