-- ==== Sys2Proof/Syntax.lean ====
section
/-! DEFINITION. The instructions: one constructor per row of spec/opcode_table.json. -/

namespace Sys2Proof

/-- The two commands of the block (spec/30_encoding.md R60, R67). Each carries one raw input byte, its DATA
field (R61). -/
inductive Instr where
  /-- ENC: encode a non-final input byte of a call (spec/40_encode.md R87). -/
  | enc (b : Byte)
  /-- ENC_LAST: encode the final input byte of a call (spec/40_encode.md R88). -/
  | encLast (b : Byte)
  deriving DecidableEq, Repr

end Sys2Proof
end

