-- ==== Sys2Proof/Machine/State.lean ====
section
/-! DEFINITION. The state of the block as plain data, the reasons a step can stop, and the states right after
power-on and right after reset. -/

namespace Sys2Proof.Machine

/-- One output beat: 8 data bits and a last flag (spec/30_encoding.md R65). -/
structure Beat where
  data : Byte
  last : Bool
  deriving DecidableEq, Repr

/-- What the host presents to the block in one step, in arrival order: the command input stream together with the
reset port (spec/20_memory.md R41, R53, R56; spec/60_exceptions.md R124). -/
inductive Arrival where
  /-- Neither a command nor reset: between commands the block takes no step (spec/60_exceptions.md R131). -/
  | idle
  /-- A command word is presented (spec/20_memory.md R41). -/
  | command (w : CmdWord)
  /-- The reset port is asserted (spec/70_reset_and_hazards.md R140). -/
  | reset
  /-- Reset and a command word in the same step (spec/60_exceptions.md R124). -/
  | resetWithCommand (w : CmdWord)
  deriving DecidableEq, Repr

/-- Why the machine stops. The block itself raises no exception (spec/60_exceptions.md R120). -/
inductive Fault where
  /-- Raised by ENC and ENC_LAST when COL holds no value: a command taken before the first reset after power-on has
  no step in the model (spec/60_exceptions.md R122 case 1; spec/70_reset_and_hazards.md R142). Safe: the
  hardware may compute something there, and no result may be assumed (log entry 1). -/
  | commandBeforeReset
  deriving DecidableEq, Repr

/-- Why an instruction is refused. No arm of exec raises it: both commands have their meaning. -/
inductive Refusal where
  /-- Raised by exec for a row that has no meaning yet. Safe: nothing follows from it. Raised by no arm now. -/
  | notModelled (mnemonic : String)
  deriving DecidableEq, Repr

/-- The state. The block's own state is COL and OUT (spec/10_state.md R20); `callOpen` is the row
"call in progress" of spec/70_reset_and_hazards.md R141; `delivered` completes OUT_HIST (R30); the last three
fields are the model's own, OUT's capacity and the host's side of the interface (DESIGN CHOICE; log entries 3, 4). -/
structure State where
  /-- COL, 8 bits unsigned (R21). `none` stands for "no value", which it holds from power-on until the first
  reset (spec/70_reset_and_hazards.md R142; DESIGN CHOICE of the form, safe; log entry 1). -/
  col : Option Byte
  /-- OUT: the beats emitted and not yet consumed, head first (R30). -/
  out : List Beat
  /-- Whether a call is in progress (spec/70_reset_and_hazards.md R141, R144;
  DESIGN CHOICE of the form, safe; log entry 2). No command reads it. -/
  callOpen : Bool
  /-- The beats that the host has taken since power-on, in order: the part of OUT_HIST before OUT (R30). -/
  delivered : List Beat
  /-- How many beats OUT can hold; `none` is unbounded, which is how a model takes OUT
  (R31; DESIGN CHOICE, unsafe; log entry 3). -/
  outCapacity : Option Nat
  /-- What the host presents from here on, the next arrival first (spec/20_memory.md R41, R53;
  DESIGN CHOICE, safe; log entry 4). A command that stalls stays at its head (DESIGN CHOICE; log entry 15). -/
  input : List Arrival
  /-- Whether the host takes a beat, step by step; an empty list takes none
  (spec/20_memory.md R53, R56; DESIGN CHOICE, safe; log entry 4). -/
  outReady : List Bool
  deriving DecidableEq, Repr

/-- The machine at power-on, before any reset: COL holds no value and OUT is empty
(spec/70_reset_and_hazards.md R142). -/
def State.powerOn : State where
  col := none
  out := []
  callOpen := false
  delivered := []
  outCapacity := none
  input := []
  outReady := []

/-- The machine right after the first reset: COL is 0, no call is in progress, no beat has been emitted, and the
block waits for its first command (spec/70_reset_and_hazards.md R140, R141; DEDUCED, log entry 14; the reset values
of the model's own fields: DESIGN CHOICE, log entries 3, 4). -/
def State.reset : State where
  col := some 0#8
  out := []
  callOpen := false
  delivered := []
  outCapacity := none
  input := []
  outReady := []

end Sys2Proof.Machine
end

