-- ==== Sys2Proof/Machine/Ops.lean ====
section
/-! DEFINITION. The named operations over COL, OUT and the host's side: what one command emits, the atomic
EncodeStep, reset, taking a beat, and the stall. The block takes no exception and returns from none
(spec/60_exceptions.md R120, R125), so the one event beside a command is reset. -/

namespace Sys2Proof.Machine

/-- The beats of the byte's own units: the marker and the escaped value, or the shifted value alone, all with
last = 0 (spec/40_encode.md R85). -/
def valueBeats (s col : Byte) : List Beat :=
  if needsEscape s col then [⟨escapeByte, false⟩, ⟨escapedValue s, false⟩] else [⟨s, false⟩]

/-- The column c after the byte's units are emitted, an unbounded integer
(spec/40_encode.md R85; spec/10_state.md R23). -/
def columnAfter (u : EscUnits) (s col : Byte) : Nat :=
  col.toNat + if needsEscape s col then u.count else 1

/-- A line break: CR with last = 0, then LF with the command's last flag (spec/40_encode.md R86;
spec/30_encoding.md R65). -/
def breakBeats (last : Bool) : List Beat := [⟨cr, false⟩, ⟨lf, last⟩]

/-- Everything EncodeStep(b, last) emits when COL is `col`, in emission order
(spec/20_memory.md R44; spec/30_encoding.md R66; spec/40_encode.md R85, R86). -/
def burst (u : EscUnits) (b : Byte) (last : Bool) (col : Byte) : List Beat :=
  valueBeats (shifted b) col ++
    if breaksLine (columnAfter u (shifted b) col) last then breakBeats last else []

/-- COL after EncodeStep(b, last) when COL was `col`: 0 after a line break, else c (spec/40_encode.md R86). -/
def nextCol (u : EscUnits) (b : Byte) (last : Bool) (col : Byte) : Byte :=
  if breaksLine (columnAfter u (shifted b) col) last then 0#8
  else BitVec.ofNat 8 (columnAfter u (shifted b) col)

/-- OUT_HIST: every beat emitted since power-on, in emission order (spec/10_state.md R30). -/
def State.outHist (s : State) : List Beat := s.delivered ++ s.out

/-- Emit: append beats to OUT, in order (spec/00_scope.md R14; spec/10_state.md R30). -/
def State.emit (s : State) (bs : List Beat) : State := { s with out := s.out ++ bs }

/-- COL <- v (spec/00_scope.md R14). -/
def State.writeCol (s : State) (v : Byte) : State := { s with col := some v }

/-- Open or close the call in progress (spec/70_reset_and_hazards.md R141, R144). -/
def State.setCallOpen (s : State) (o : Bool) : State := { s with callOpen := o }

/-- EncodeStep(b, last) as one atomic step: it emits its beats and writes COL; the call stays open unless this was
its last byte (spec/40_encode.md R80 to R86; spec/20_memory.md R46, R53). With no value in COL there is no step
(spec/60_exceptions.md R122 case 1). -/
def encodeStep (u : EscUnits) (b : Byte) (last : Bool) (s : State) :
    Host.Outcome State Fault Refusal :=
  match s.col with
  | none => .fault .commandBeforeReset
  | some col =>
    .next (((s.emit (burst u b last col)).writeCol (nextCol u b last col)).setCallOpen (!last))

/-- Reset: COL <- 0 and any call in progress is abandoned; no beat is emitted and OUT is unchanged
(spec/70_reset_and_hazards.md R140, R141). -/
def State.assertReset (s : State) : State := (s.writeCol 0#8).setCallOpen false

/-- The host takes the beat at OUT's head: it leaves OUT, once (spec/20_memory.md R47). With OUT empty there is
no beat and nothing happens (R56: out_valid is 0). -/
def State.takeBeat (s : State) : State :=
  match s.out with
  | [] => s
  | b :: bs => { s with out := bs, delivered := s.delivered ++ [b] }

/-- The host's part of one step: it takes a beat when it is ready to (spec/20_memory.md R53, R56). -/
def State.serveOutput (s : State) : State :=
  match s.outReady with
  | [] => s
  | r :: rs => if r then { s.takeBeat with outReady := rs } else { s with outReady := rs }

/-- The beats that the instruction would emit now; none while COL holds no value. -/
def State.pendingBeats (s : State) (i : Instr) : List Beat :=
  match s.col, i with
  | none, _ => []
  | some col, .enc b => burst escUnits b false col
  | some col, .encLast b => burst escUnits b true col

/-- The stall: bounded output storage cannot take all of the command's beats, so the command is not taken
(spec/20_memory.md R52; spec/10_state.md R31). It never holds with unbounded OUT, nor while COL holds no value
(there the command has no step at all, R122). -/
def State.stalled (s : State) (i : Instr) : Bool :=
  match s.outCapacity, s.col with
  | some n, some _ => decide (n < s.out.length + (s.pendingBeats i).length)
  | _, _ => false

end Sys2Proof.Machine
end

