-- ==== Sys2Proof/Machine/Encode.lean ====
section
/-! DEFINITION. The encode family: the meanings of ENC and ENC_LAST (spec/40_encode.md). -/

namespace Sys2Proof.Machine

/-- ENC b is EncodeStep(b, 0) (spec/40_encode.md R87). -/
def execEnc (b : Byte) (s : State) : Host.Outcome State Fault Refusal :=
  encodeStep escUnits b false s

/-- ENC_LAST b is EncodeStep(b, 1) (spec/40_encode.md R88). -/
def execEncLast (b : Byte) (s : State) : Host.Outcome State Fault Refusal :=
  encodeStep escUnits b true s

end Sys2Proof.Machine
end

