-- ==== Sys2Proof/Machine/Dispatch.lean ====
section
/-! DEFINITION. The dispatch: one arm per constructor of Instr. -/

namespace Sys2Proof.Machine

def exec (i : Instr) (s : State) : Host.Outcome State Fault Refusal :=
  match i with
  | .enc b => Sys2Proof.Machine.execEnc b s
  | .encLast b => Sys2Proof.Machine.execEncLast b s

end Sys2Proof.Machine
end

