-- ==== Sys2Proof/WellFormed.lean ====
section
/-! DEFINITION. What a well-formed operand, command word and instruction is. Every term of Instr is well formed
by its type, since all 512 command words are legal (spec/30_encoding.md R63); the checks below are the two that
a number given from outside the types has to pass. -/

namespace Sys2Proof

/-- An immediate of the assembler must be in 0..255 (spec/30_encoding.md R68). -/
def wfImm8 (n : Nat) : Bool := decide (n < 256)

/-- A command word has one fixed length, 9 bits (spec/30_encoding.md R64). -/
def wfCmdWord (n : Nat) : Bool := decide (n < 512)

/-- The DATA operand of an instruction (spec/30_encoding.md R61). -/
def Instr.operand : Instr → Byte
  | .enc b => b
  | .encLast b => b

/-- The LAST flag that an instruction carries (spec/30_encoding.md R60). -/
def Instr.isLast : Instr → Bool
  | .enc _ => false
  | .encLast _ => true

/-- An instruction is well formed when its operand is an 8-bit value. -/
def Instr.wf (i : Instr) : Bool := wfImm8 i.operand.toNat

end Sys2Proof
end

