-- ==== Sys2Proof/Decode.lean ====
section
/-! DEFINITION. Decoding of command words, total and never refusing on 9 bits (spec/30_encoding.md R62, R63),
and the encoder written from the same table (R60). -/

namespace Sys2Proof

/-- The LAST field of a command word, cmd[8] (spec/30_encoding.md R60). -/
def lastField (w : CmdWord) : Bool := w.getLsbD 8

/-- The DATA field of a command word, cmd[7:0], an unsigned byte taken as it is (spec/30_encoding.md R61). -/
def dataField (w : CmdWord) : Byte := w.extractLsb' 0 8

/-- The instruction of a command word: cmd[8] = 0 selects ENC and cmd[8] = 1 selects ENC_LAST, and DATA is
never inspected (spec/30_encoding.md R62). Total: all 512 words are legal (R63). -/
def decode (w : CmdWord) : Instr :=
  if lastField w then .encLast (dataField w) else .enc (dataField w)

/-- Why a number offered as a command word is no command word. -/
inductive DecodeError where
  /-- The number has a bit set above bit 8: command words are 9 bits (spec/30_encoding.md R64). -/
  | notNineBits
  deriving DecidableEq, Repr

/-- Decoding of any number: the 9-bit command words decode (spec/30_encoding.md R63), a larger number is no
command word and is rejected by name (DESIGN CHOICE, safe; log entry 6). -/
def decodeNat (n : Nat) : Except DecodeError Instr :=
  if wfCmdWord n then .ok (decode (BitVec.ofNat 9 n)) else .error .notNineBits

/-- The command word of an instruction: LAST above DATA (spec/30_encoding.md R60, R11). -/
def encode : Instr → CmdWord
  | .enc b => 0#1 ++ b
  | .encLast b => 1#1 ++ b

/-- The number that the low `nbits` bits of `w` form, bits above `nbits` being 0 as the opcode table's
numbering has them. -/
def tableBits (nbits w : Nat) : Nat := w % 2 ^ nbits

/-- What the decoder reads from an instruction whose bits are `w`, numbered as spec/opcode_table.json numbers
them; `none` where it refuses. The word crosses the interface whole (spec/20_memory.md R43), so there is no
byte order to lay out. -/
def decodeTableWord (nbits w : Nat) : Option Instr :=
  match decodeNat (tableBits nbits w) with
  | .ok i => some i
  | .error _ => none

end Sys2Proof
end

