-- ==== Sys2Proof/Machine/Fetch.lean ====
section
/-! DEFINITION. What one step takes from the host: the block fetches nothing from memory
(spec/10_state.md R33; spec/20_memory.md R51), its commands arrive on the input stream. -/

namespace Sys2Proof.Machine

/-- What a step does with the next arrival. -/
inductive Fetched where
  /-- No command is taken in this step; `t` is the state after it. -/
  | hold (t : State)
  /-- The command `i` is taken; it runs on `t`, in which it has left the input stream. -/
  | run (i : Instr) (t : State)
  deriving DecidableEq, Repr

/-- The next arrival, served. The host's beat is taken first; whether there is room for a command is judged on OUT
as it stood before the step (DESIGN CHOICE, unsafe for timing only; log entry 5). The host may take a beat in a reset
step too (DEDUCED; log entry 13). Reset wins over a command in the same step, which is not taken
(spec/60_exceptions.md R124). A command that stalls stays where it is (spec/20_memory.md R52).
That the host does not withdraw it or reset past it, so that an idle or a reset listed behind it is served only after
it is taken, is the model's choice: R53 lets the host reset at any time and R56 is silent on withdrawing a command
(DESIGN CHOICE, unsafe for runs of several steps with bounded OUT; log entry 15). A reset during the stall is the
arrival `resetWithCommand` in the place of the stalled command. -/
def State.fetch (s : State) : Fetched :=
  match s.input with
  | [] => .hold s.serveOutput
  | .idle :: rest => .hold { s.serveOutput with input := rest }
  | .reset :: rest => .hold { s.serveOutput.assertReset with input := rest }
  | .resetWithCommand _ :: rest => .hold { s.serveOutput.assertReset with input := rest }
  | .command w :: rest =>
    if s.stalled (decode w) then .hold s.serveOutput
    else .run (decode w) { s.serveOutput with input := rest }

/-- The state with a command word put at the front of the input stream. -/
def State.presentWord (s : State) (w : CmdWord) : State := { s with input := .command w :: s.input }

end Sys2Proof.Machine
end

