-- ==== Sys2Proof/Machine/Step.lean ====
section
/-! DEFINITION. One step of the machine, and the placing of a word where the next step takes its command. -/

namespace Sys2Proof.Machine

/-- One step: the host's beat is taken, then the next arrival is served; a command that is taken runs whole
(spec/20_memory.md R46; spec/70_reset_and_hazards.md R147). -/
def step (s : State) : Host.Outcome State Fault Refusal :=
  match s.fetch with
  | .hold t => .next t
  | .run i t => exec i t

/-- `s` with the command word `w` next on the input stream, so that the next step takes it. A number that is no
9-bit word is no command (spec/30_encoding.md R64), and then `s` is unchanged. -/
def State.withFetchWord (s : State) (nbits w : Nat) : State :=
  if wfCmdWord (tableBits nbits w) then s.presentWord (BitVec.ofNat 9 (tableBits nbits w)) else s

end Sys2Proof.Machine
end

