-- ==== Sys2Proof/Machine/Ports.lean ====
section
/-! DEFINITION. The informative port binding of spec/20_memory.md R56: the pins as functions of the state, and a
clock edge as one step in which the host presents exactly what the input pins show. -/

namespace Sys2Proof.Machine

/-- The input pins rst, cmd_valid, cmd_data and out_ready (R56). -/
structure PortIn where
  rst : Bool
  cmdValid : Bool
  cmdData : CmdWord
  outReady : Bool
  deriving DecidableEq, Repr

/-- What the input pins present (R56; spec/60_exceptions.md R124). -/
def PortIn.arrival (p : PortIn) : Arrival :=
  match p.rst, p.cmdValid with
  | false, false => .idle
  | false, true => .command p.cmdData
  | true, false => .reset
  | true, true => .resetWithCommand p.cmdData

/-- cmd_ready: low while stalled or in reset (R56); the stall is judged for the command presented (DEDUCED from R52 and
vector S4; log entry 11). -/
def State.cmdReady (s : State) (p : PortIn) : Bool := !p.rst && !s.stalled (decode p.cmdData)

/-- The beat that out_data and out_last show; `none` while out_valid is 0 (R56; DESIGN CHOICE, safe;
log entry 11). -/
def State.outBeat (s : State) : Option Beat := s.out.head?

/-- out_valid (R56). -/
def State.outValid (s : State) : Bool := s.outBeat.isSome

/-- The state with the input pins driven: what they present is all that the host presents. At each edge the host may
drive anything, also withdraw a command that stalled or reset over it, which one input list does not show
(DESIGN CHOICE; log entry 15). -/
def State.drive (s : State) (p : PortIn) : State :=
  { s with input := [p.arrival], outReady := [p.outReady] }

/-- One active edge of clk with the input pins `p` (R56). Which edge of clk is the active one the spec leaves open, and
so does the model: a step is an active edge, rising or falling (DESIGN CHOICE, safe; log entry 16). -/
def clockEdge (p : PortIn) (s : State) : Host.Outcome State Fault Refusal := step (s.drive p)

end Sys2Proof.Machine
end

