-- ==== Sys2Proof/Machine/Asm.lean ====
section
/-! DEFINITION. The assembler of spec/30_encoding.md R68: another spelling of the two commands, of the reset port
and of a whole call. It adds no behaviour to the block (spec/92_eei_decisions.md D17). -/

namespace Sys2Proof.Machine

/-- One line of a program (R68). -/
inductive AsmLine where
  | enc (b : Byte)
  | encLast (b : Byte)
  | reset
  | encode (bs : List Byte)
  deriving DecidableEq, Repr

/-- The commands of one call: nothing for the empty call, else ENC for every byte but the last and ENC_LAST for
the last (R68; spec/40_encode.md R89; spec/20_memory.md R53). -/
def callInstrs : List Byte → List Instr
  | [] => []
  | b :: rest => (if rest.isEmpty then .encLast b else .enc b) :: callInstrs rest

/-- What a line puts on the input stream; `reset` assembles to no word, it asserts the reset port (R68). -/
def assembleLine : AsmLine → List Arrival
  | .enc b => [.command (Sys2Proof.encode (.enc b))]
  | .encLast b => [.command (Sys2Proof.encode (.encLast b))]
  | .reset => [.reset]
  | .encode bs => (callInstrs bs).map fun i => .command (Sys2Proof.encode i)

/-- What a program puts on the input stream, line after line. -/
def assemble (p : List AsmLine) : List Arrival := p.flatMap assembleLine

/-- Why the assembler rejects a line. -/
inductive AsmError where
  /-- A quote or an apostrophe that the line does not close. -/
  | openLiteral
  /-- The line is none of the forms of R68. -/
  | badLine
  /-- The value is not in 0..255 (R68). -/
  | outOfRange
  /-- A character with no ASCII code (R68; spec/93_implementation_defined.md G1). -/
  | notAscii
  deriving DecidableEq, Repr

/-- The parts of a line. -/
inductive AsmToken where
  | word (cs : List Char)
  | char (c : Char)
  | string (cs : List Char)
  | comma
  deriving DecidableEq, Repr

/-- Where the reader of a line stands. -/
inductive LexMode where
  | plain
  | word (acc : List Char)
  | quote
  | quoted (c : Char)
  | string (acc : List Char)
  deriving DecidableEq, Repr

/-- White space between the parts of a line (DESIGN CHOICE; log entry 7). -/
def isBlank (c : Char) : Bool := c == ' ' || c == '\t' || c == '\r'

/-- The parts of a line, up to a comment, which `;` starts (R68); how parts are told apart where R68 is silent is a
DESIGN CHOICE (log entry 7). -/
def lex : LexMode → List Char → Except AsmError (List AsmToken)
  | .plain, [] => .ok []
  | .word acc, [] => .ok [.word acc.reverse]
  | .quote, [] => .error .openLiteral
  | .quoted _, [] => .error .openLiteral
  | .string _, [] => .error .openLiteral
  | .plain, c :: r =>
    if c == ';' then .ok []
    else if isBlank c then lex .plain r
    else if c == ',' then (lex .plain r).map (AsmToken.comma :: ·)
    else if c == '\'' then lex .quote r
    else if c == '"' then lex (.string []) r
    else lex (.word [c]) r
  | .word acc, c :: r =>
    if c == ';' then .ok [.word acc.reverse]
    else if isBlank c then (lex .plain r).map (AsmToken.word acc.reverse :: ·)
    else if c == ',' then (lex .plain r).map fun ts => .word acc.reverse :: .comma :: ts
    else if c == '\'' || c == '"' then .error .badLine
    else lex (.word (c :: acc)) r
  | .quote, c :: r => lex (.quoted c) r
  | .quoted c, d :: r =>
    if d == '\'' then (lex .plain r).map (AsmToken.char c :: ·) else .error .openLiteral
  | .string acc, c :: r =>
    if c == '"' then (lex .plain r).map (AsmToken.string acc.reverse :: ·)
    else lex (.string (c :: acc)) r

/-- The value of a digit in the given base, 10 or 16. -/
def digitValue (base : Nat) (c : Char) : Option Nat :=
  let n := c.toNat
  let v := if 48 ≤ n && n ≤ 57 then some (n - 48)
    else if 97 ≤ n && n ≤ 102 then some (n - 87)
    else if 65 ≤ n && n ≤ 70 then some (n - 55)
    else none
  v.bind fun d => if d < base then some d else none

/-- The number that digits spell after `acc`. -/
def digitsFrom (base : Nat) : Nat → List Char → Option Nat
  | acc, [] => some acc
  | acc, c :: r =>
    match digitValue base c with
    | some d => digitsFrom base (base * acc + d) r
    | none => none

/-- A number in decimal or, after `0x`, in hexadecimal (R68). -/
def numberOf : List Char → Option Nat
  | [] => none
  | [c] => digitsFrom 10 0 [c]
  | c :: d :: r =>
    if c == '0' && d == 'x' then (if r.isEmpty then none else digitsFrom 16 0 r)
    else digitsFrom 10 0 (c :: d :: r)

/-- The byte of a number, which must be in 0..255 (R68). -/
def byteOfNumber (n : Nat) : Except AsmError Byte :=
  if wfImm8 n then .ok (BitVec.ofNat 8 n) else .error .outOfRange

/-- The ASCII code of a character (R68; PRESUMED from general knowledge as the spec itself marks it, log entry 7). -/
def byteOfChar (c : Char) : Except AsmError Byte :=
  if c.toNat < 128 then .ok (BitVec.ofNat 8 c.toNat) else .error .notAscii

/-- The bytes of a string literal, in order (R68). -/
def bytesOfString : List Char → Except AsmError (List Byte)
  | [] => .ok []
  | c :: r =>
    match byteOfChar c, bytesOfString r with
    | .ok b, .ok bs => .ok (b :: bs)
    | .error e, _ => .error e
    | .ok _, .error e => .error e

/-- An immediate: decimal, hexadecimal or a character literal (R68). -/
def immediate : AsmToken → Except AsmError Byte
  | .word cs =>
    match numberOf cs with
    | some n => byteOfNumber n
    | none => .error .badLine
  | .char c => byteOfChar c
  | .string _ => .error .badLine
  | .comma => .error .badLine

/-- An operand of the pseudo-instruction: an immediate or a string literal (R68). -/
def operandBytes : AsmToken → Except AsmError (List Byte)
  | .string cs => bytesOfString cs
  | t => (immediate t).map fun b => [b]

/-- The operands of the pseudo-instruction, separated by commas (R68). -/
def operandList : List AsmToken → Except AsmError (List Byte)
  | [] => .error .badLine
  | [t] => operandBytes t
  | t :: .comma :: r =>
    match operandBytes t, operandList r with
    | .ok bs, .ok cs => .ok (bs ++ cs)
    | .error e, _ => .error e
    | .ok _, .error e => .error e
  | _ :: _ :: _ => .error .badLine

/-- The line that the parts spell; `none` for a line with nothing on it (R68). -/
def lineOfTokens : List AsmToken → Except AsmError (Option AsmLine)
  | [] => .ok none
  | .word m :: ts =>
    if m == ['e', 'n', 'c'] then
      match ts with
      | [t] => (immediate t).map fun b => some (.enc b)
      | _ => .error .badLine
    else if m == ['e', 'n', 'c', '.', 'l', 'a', 's', 't'] then
      match ts with
      | [t] => (immediate t).map fun b => some (.encLast b)
      | _ => .error .badLine
    else if m == ['r', 'e', 's', 'e', 't'] then
      if ts.isEmpty then .ok (some .reset) else .error .badLine
    else if m == ['e', 'n', 'c', 'o', 'd', 'e'] then
      if ts.isEmpty then .ok (some (.encode []))
      else (operandList ts).map fun bs => some (.encode bs)
    else .error .badLine
  | _ :: _ => .error .badLine

/-- One line of text (R68). -/
def parseLine (cs : List Char) : Except AsmError (Option AsmLine) :=
  match lex .plain cs with
  | .ok ts => lineOfTokens ts
  | .error e => .error e

/-- The lines of a program, in order; the first line that is rejected rejects the program. -/
def parseLines : List (List Char) → Except AsmError (List AsmLine)
  | [] => .ok []
  | l :: ls =>
    match parseLine l, parseLines ls with
    | .error e, _ => .error e
    | .ok _, .error e => .error e
    | .ok none, .ok p => .ok p
    | .ok (some a), .ok p => .ok (a :: p)

/-- A text program, given line by line, as the arrivals that it stands for (R68). -/
def assembleText (ls : List (List Char)) : Except AsmError (List Arrival) :=
  (parseLines ls).map assemble

end Sys2Proof.Machine
end

