-- ==== Sys2Proof/Safety.lean ====
section
/-! DEFINITION. What counts as a safe run and as a right one, in the terms the statements use: the invariant of the
state, the host's duties (spec/70_reset_and_hazards.md R146), a call and its output (spec/40_encode.md R89 to R100). -/

namespace Sys2Proof.Machine

/-! ### The invariant -/

/-- COL is below LINE_LENGTH between commands, if it holds a value (spec/10_state.md R22). -/
def State.colInRange (s : State) : Bool :=
  match s.col with
  | none => true
  | some c => decide (c.toNat < lineLength)

/-- At a call boundary COL is 0, or holds no value before the first reset
(spec/70_reset_and_hazards.md R144; spec/10_state.md R36). -/
def State.boundaryColZero (s : State) : Bool :=
  match s.col with
  | none => !s.callOpen
  | some c => s.callOpen || c == 0#8

/-- OUT holds no more beats than its capacity (spec/20_memory.md R52). -/
def State.outFits (s : State) : Bool :=
  match s.outCapacity with
  | none => true
  | some n => decide (s.out.length ≤ n)

/-- last = 1 stands on LF beats only (spec/30_encoding.md R65). -/
def State.lastOnlyOnLf (s : State) : Bool := s.outHist.all fun b => !b.last || b.data == lf

/-- The invariant that every step keeps. -/
abbrev State.Inv (s : State) : Prop :=
  s.colInRange = true ∧ s.boundaryColZero = true ∧ s.outFits = true ∧ s.lastOnlyOnLf = true

/-! ### The host's first duty: reset before the first command (spec/70_reset_and_hazards.md R143, R146) -/

/-- No command is presented before a reset. -/
def resetsFirst : List Arrival → Bool
  | [] => true
  | .idle :: rest => resetsFirst rest
  | .command _ :: _ => false
  | .reset :: _ => true
  | .resetWithCommand _ :: _ => true

/-- A state in which the host keeps that duty: the block has been reset, or will be before any command. -/
def State.safe (s : State) : Bool := s.col.isSome || resetsFirst s.input

/-! ### What many steps and a list of commands do -/

/-- `s` with COL, the call in progress and the beats appended to OUT as given: the shape of a command's next state. -/
def State.afterBeats (s : State) (col : Byte) (o : Bool) (bs : List Beat) : State :=
  { s with col := some col, callOpen := o, out := s.out ++ bs }

/-- The input bytes whose shifted value is always escaped (spec/40_encode.md R92). -/
def alwaysEscapedInputs : List Byte := [0x13#8, 0xD6#8, 0xE0#8, 0xE3#8]

/-- The input bytes whose shifted value is tab or space (spec/40_encode.md R92). -/
def wsInputs : List Byte := [0xDF#8, 0xF6#8]

/-- The seven input bytes that can be escaped (spec/40_encode.md R92); 0x04 is dot's. -/
def escapableInputs : List Byte := 0x04#8 :: (wsInputs ++ alwaysEscapedInputs)


/-- `k` steps, stopping at the first fault or refusal. -/
def stepMany : Nat → State → Host.Outcome State Fault Refusal
  | 0, s => .next s
  | k + 1, s =>
    match step s with
    | .next t => stepMany k t
    | .fault f => .fault f
    | .refused r => .refused r


/-- The commands run one after another (spec/20_memory.md R49). -/
def runInstrs : List Instr → State → Host.Outcome State Fault Refusal
  | [], s => .next s
  | i :: rest, s =>
    match exec i s with
    | .next t => runInstrs rest t
    | .fault f => .fault f
    | .refused r => .refused r

/-- COL after the bytes are encoded by ENC from COL `col` (spec/40_encode.md R85, R86). -/
def encCol (u : EscUnits) : Byte → List Byte → Byte
  | col, [] => col
  | col, b :: rest => encCol u (nextCol u b false col) rest

/-- The beats of the bytes encoded by ENC from COL `col`: a call so far, not yet ended. -/
def encBeats (u : EscUnits) : Byte → List Byte → List Beat
  | _, [] => []
  | col, b :: rest => burst u b false col ++ encBeats u (nextCol u b false col) rest

/-- The beats of a call whose bytes are given, from COL `col`: the final byte is ENC_LAST's
(spec/40_encode.md R89). -/
def callBeats (u : EscUnits) : Byte → List Byte → List Beat
  | _, [] => []
  | col, b :: rest =>
    burst u b rest.isEmpty col ++ callBeats u (nextCol u b rest.isEmpty col) rest

/-- The data bytes of beats, in order. -/
def dataOf (bs : List Beat) : List Byte := bs.map Beat.data

/-- encode(x): the data bytes of the call's beats from a call boundary, where COL is 0
(spec/40_encode.md R89, R90). -/
def encodeCall (u : EscUnits) (xs : List Byte) : List Byte := dataOf (callBeats u 0#8 xs)

/-- How many of a call's bytes are escaped, from COL `col` (spec/40_encode.md R96). -/
def escapedCount (u : EscUnits) : Byte → List Byte → Nat
  | _, [] => 0
  | col, b :: rest =>
    (if needsEscape (shifted b) col then 1 else 0) +
      escapedCount u (nextCol u b rest.isEmpty col) rest

/-- A call's output is complete once a beat with last = 1 has been taken (spec/20_memory.md R54). -/
def resultTaken (taken : List Beat) : Bool := taken.any Beat.last

/-! ### Reading an output -/

/-- Decode, the test oracle; it is no part of the hardware (spec/40_encode.md R100; spec/00_scope.md R4). A marker or
a CR at the very end has nothing after it to read, which no output of a call holds (R93; DESIGN CHOICE, log
entry 12). -/
def decodeOutput : List Byte → List Byte
  | [] => []
  | [x] => if x == cr || x == escapeByte then [] else [x - shift]
  | x :: y :: rest =>
    if x == cr then decodeOutput rest
    else if x == escapeByte then (y - escapeShift - shift) :: decodeOutput rest
    else (x - shift) :: decodeOutput (y :: rest)

/-- The lines of an output, each with its data bytes and without its line break
(spec/00_scope.md section 6, "line"); `cur` is what the current line holds so far. -/
def linesFrom : List Byte → List Byte → List (List Byte)
  | cur, [] => if cur.isEmpty then [] else [cur]
  | cur, x :: rest =>
    if x == cr then cur :: linesFrom [] rest
    else if x == lf then linesFrom cur rest
    else linesFrom (cur ++ [x]) rest

/-- The lines of an output. -/
def outputLines (o : List Byte) : List (List Byte) := linesFrom [] o

/-- The column units of a line: a bare byte is 1, an escape pair is ESC_UNITS (spec/40_encode.md R94). -/
def unitsOf (u : EscUnits) : List Byte → Nat
  | [] => 0
  | [_] => 1
  | x :: y :: rest =>
    if x == escapeByte then u.count + unitsOf u rest else 1 + unitsOf u (y :: rest)

/-- How many bytes stand after the last LF of an output (spec/40_encode.md R98). -/
def sinceBreak (o : List Byte) : Nat := (o.reverse.takeWhile (· != lf)).length

/-- The escaped values (spec/40_encode.md R92, R93). -/
def escapedValues : List Byte := [64#8, 73#8, 74#8, 77#8, 96#8, 110#8, 125#8]

/-- Whether an output is made of escape pairs, bare values outside ALWAYS_ESC, and CR LF pairs
(spec/40_encode.md R93). -/
def alphabetOk : List Byte → Bool
  | [] => true
  | [x] => !alwaysEsc.contains x
  | x :: y :: rest =>
    if x == escapeByte then escapedValues.contains y && alphabetOk rest
    else if x == cr then y == lf && alphabetOk rest
    else !alwaysEsc.contains x && alphabetOk (y :: rest)

/-! ### The step of spec/40_encode.md section 2, written with unbounded integers only -/

/-- NeedsEscape of the spec's pseudocode, on integers (spec/40_encode.md R81). -/
def refNeedsEscape (s col : Nat) : Bool :=
  decide (s = 0 ∨ s = 10 ∨ s = 13 ∨ s = 61) ||
    decide ((s = 9 ∨ s = 32) ∧ (col = 0 ∨ col = 127)) || decide (s = 46 ∧ col = 0)

/-- EncodeStep(b, last) of the spec's pseudocode, on integers: the beats as pairs of a byte value and a last flag,
and the new COL (spec/40_encode.md section 2; spec/00_scope.md R12). It shares no definition with the machine. -/
def refStep (b col : Nat) (last : Bool) : List (Nat × Bool) × Nat :=
  let s := (b + 42) % 256
  let e := refNeedsEscape s col
  let units := if e then [(61, false), ((s + 64) % 256, false)] else [(s, false)]
  let c := if e then col + 2 else col + 1
  if decide (128 ≤ c) || last then (units ++ [(13, false), (10, last)], 0) else (units, c)

/-- encode(x) of the spec's pseudocode, on integers, from column `col` (spec/40_encode.md R89). -/
def refCall : Nat → List Nat → List Nat
  | _, [] => []
  | col, b :: rest =>
    (refStep b col rest.isEmpty).1.map Prod.fst ++ refCall (refStep b col rest.isEmpty).2 rest

/-- A beat as the pair of its byte value and its last flag. -/
def beatPair (b : Beat) : Nat × Bool := (b.data.toNat, b.last)

/-! ### What a list of arrivals will have emitted -/

/-- The beats that the arrivals make the block emit, from COL `col`, whatever the host takes and whenever. A command
with no value in COL emits nothing, and nothing after it either: the block is stuck there. -/
def arrivalBeats : Option Byte → List Arrival → List Beat
  | _, [] => []
  | col, .idle :: rest => arrivalBeats col rest
  | _, .reset :: rest => arrivalBeats (some 0#8) rest
  | _, .resetWithCommand _ :: rest => arrivalBeats (some 0#8) rest
  | none, .command _ :: _ => []
  | some col, .command w :: rest =>
    burst escUnits (decode w).operand (decode w).isLast col ++
      arrivalBeats (some (nextCol escUnits (decode w).operand (decode w).isLast col)) rest

/-- COL after the arrivals, from COL `col`; `none` where the block is stuck or was never reset. -/
def arrivalCol : Option Byte → List Arrival → Option Byte
  | col, [] => col
  | col, .idle :: rest => arrivalCol col rest
  | _, .reset :: rest => arrivalCol (some 0#8) rest
  | _, .resetWithCommand _ :: rest => arrivalCol (some 0#8) rest
  | none, .command _ :: _ => none
  | some col, .command w :: rest =>
    arrivalCol (some (nextCol escUnits (decode w).operand (decode w).isLast col)) rest

/-- OUT_HIST as it will be once everything on the input stream is taken: the beats emitted so far, and those of
the arrivals still to come (spec/10_state.md R30; spec/20_memory.md R49, R52). -/
def State.finalHist (s : State) : List Beat := s.outHist ++ arrivalBeats s.col s.input

end Sys2Proof.Machine
end

