-- ==== Sys2Proof/Certificates/Slice0/Obligations.lean ====
section
/-! DEFINITION. The statements for the provers. Each docstring names the rule of the spec it formalises. -/

open Sys2Proof Sys2Proof.Machine

/-! ### Encoding (spec/30_encoding.md) -/

/-- R60, R61: the word of a well-formed instruction decodes to that instruction, also when offered as a number. -/
def Obligations.DecodeOfEncodeIsTheInstruction : Prop :=
  ∀ i : Instr, i.wf = true →
    decode (encode i) = i ∧ decodeNat (encode i).toNat = .ok i ∧
      decodeTableWord 16 (encode i).toNat = some i

/-- R63: each of the 512 command words decodes, and to exactly one instruction; no word is refused. -/
def Obligations.EveryCommandWordIsLegal : Prop :=
  ∀ n : Nat, n < 512 → ∃ i : Instr, decodeNat n = .ok i ∧
    ((∃ b, i = .enc b) ∨ ∃ b, i = .encLast b) ∧
    (encode i).toNat = n ∧ ∀ j : Instr, (encode j).toNat = n → j = i

/-- R62, R67: bit 8 alone selects the row, and the operand is the low byte. -/
def Obligations.BitEightSelectsTheCommand : Prop :=
  ∀ n : Nat, n < 256 →
    decode (BitVec.ofNat 9 n) = .enc (BitVec.ofNat 8 n) ∧
    decode (BitVec.ofNat 9 (256 + n)) = .encLast (BitVec.ofNat 8 n)

/-- Sanity: words written out bit by bit from the rows `0dddddddd` and `1dddddddd` decode to their instructions. -/
def Obligations.SampleWordsDecode : Prop :=
  decode 0b000000100#9 = .enc 0x04#8 ∧ decode 0b011110110#9 = .enc 0xF6#8 ∧
  decode 0b100000100#9 = .encLast 0x04#8 ∧ decode 0b111010110#9 = .encLast 0xD6#8

/-- R64 gives command words 9 bits; that a longer number is rejected by name is the model's choice
(log entry 6). -/
def Obligations.LongerNumbersAreNoCommandWords : Prop :=
  ∀ n : Nat, decodeNat n = .error .notNineBits ↔ 512 ≤ n

/-- R68: what each line of the assembler puts on the input stream, and that an immediate outside 0..255 is
rejected. -/
def Obligations.AssemblerExpandsCalls : Prop :=
  (∀ b, assembleLine (.enc b) = [.command (0#1 ++ b)]) ∧
  (∀ b, assembleLine (.encLast b) = [.command (1#1 ++ b)]) ∧
  assembleLine .reset = [.reset] ∧
  assembleLine (.encode []) = [] ∧
  (∀ (bs : List Byte) (b : Byte), assembleLine (.encode (bs ++ [b])) =
    bs.map (fun x => .command (0#1 ++ x)) ++ [.command (1#1 ++ b)]) ∧
  ∀ n : Nat, byteOfNumber n = if n ≤ 255 then .ok (BitVec.ofNat 8 n) else .error .outOfRange

/-! ### The arithmetic and the decisions of one step (spec/40_encode.md) -/

/-- R80, R84: the shift adds 42 and the escaped value adds 64, both modulo 256; for an escaped s the second sum never
wraps and is at most 125. -/
def Obligations.ShiftAndEscapedValueAreByteSums : Prop :=
  (∀ b : Byte, (shifted b).toNat = (b.toNat + 42) % 256) ∧
  (∀ s : Byte, (escapedValue s).toNat = (s.toNat + 64) % 256) ∧
  ∀ s col : Byte, needsEscape s col = true →
    s.toNat ≤ 61 ∧ (escapedValue s).toNat = s.toNat + 64 ∧ (escapedValue s).toNat ≤ 125

/-- R81: the escaping rule table, for every s and every COL. -/
def Obligations.EscapeDecisionIsTheRuleTable : Prop :=
  ∀ s col : Byte, needsEscape s col = true ↔
    (s.toNat = 0 ∨ s.toNat = 10 ∨ s.toNat = 13 ∨ s.toNat = 61) ∨
    ((s.toNat = 9 ∨ s.toNat = 32) ∧ (col.toNat = 0 ∨ col.toNat = 127)) ∨
    (s.toNat = 46 ∧ col.toNat = 0)

/-- R92: the seven input bytes that can be escaped, their shifted and escaped values, and when each is escaped; every
other input byte is always bare. -/
def Obligations.SevenInputBytesCanBeEscaped : Prop :=
  (∀ b : Byte, (∃ col, needsEscape (shifted b) col = true) ↔
    b ∈ [0x04#8, 0x13#8, 0xD6#8, 0xDF#8, 0xE0#8, 0xE3#8, 0xF6#8]) ∧
  (∀ col : Byte, (needsEscape (shifted 0x04#8) col = true ↔ col = 0#8) ∧
    needsEscape (shifted 0x13#8) col = true ∧ needsEscape (shifted 0xD6#8) col = true ∧
    (needsEscape (shifted 0xDF#8) col = true ↔ col = 0#8 ∨ col = 127#8) ∧
    needsEscape (shifted 0xE0#8) col = true ∧ needsEscape (shifted 0xE3#8) col = true ∧
    (needsEscape (shifted 0xF6#8) col = true ↔ col = 0#8 ∨ col = 127#8)) ∧
  [0x04#8, 0x13#8, 0xD6#8, 0xDF#8, 0xE0#8, 0xE3#8, 0xF6#8].map shifted =
    [46#8, 61#8, 0#8, 9#8, 10#8, 13#8, 32#8] ∧
  [0x04#8, 0x13#8, 0xD6#8, 0xDF#8, 0xE0#8, 0xE3#8, 0xF6#8].map (fun b => escapedValue (shifted b)) =
    [0x6E#8, 0x7D#8, 0x40#8, 0x49#8, 0x4A#8, 0x4D#8, 0x60#8] ∧
  ∀ (i : Instr) (s : State) (c : Byte), s.col = some c →
    i.operand ∉ [0x04#8, 0x13#8, 0xD6#8, 0xDF#8, 0xE0#8, 0xE3#8, 0xF6#8] →
    ∃ t rest, exec i s = .next t ∧ t.out = s.out ++
        ((⟨BitVec.ofNat 8 ((i.operand.toNat + 42) % 256), false⟩ : Beat) :: rest) ∧
      (rest = [] ∨ rest = [⟨13#8, false⟩, ⟨10#8, i.isLast⟩])

/-- R23: from a COL below LINE_LENGTH the column inside a step reaches at most LINE_LENGTH - 1 + ESC_UNITS; in this
hardware that is 129, reached exactly for a byte escaped at COL 127. -/
def Obligations.ColumnInsideAStepIsBounded : Prop :=
  ∀ s col : Byte, col.toNat < 128 →
    (∀ u : EscUnits, columnAfter u s col ≤ 127 + u.count) ∧
    columnAfter escUnits s col ≤ 129 ∧
    (columnAfter escUnits s col = 129 ↔ col = 127#8 ∧ needsEscape s col = true)

/-! ### The commands -/

/-- R80, R81, R85, R86: both commands do what the spec's pseudocode of EncodeStep says, computed on integers: the beats
in order, the new COL. -/
def Obligations.CommandsMatchTheSpecsPseudocode : Prop :=
  ∀ (i : Instr) (s : State) (c : Byte), s.col = some c →
    ∃ t bs, exec i s = .next t ∧ t.out = s.out ++ bs ∧
      bs.map beatPair = (refStep i.operand.toNat c.toNat i.isLast).1 ∧
      t.col = some (BitVec.ofNat 8 (refStep i.operand.toNat c.toNat i.isLast).2)

/-- R87: ENC completes whenever COL holds a value. The whole next state, its 1 to 4 beats, all with last = 0, and its
word. -/
def Obligations.EncRunsEncodeStepWithLastZero : Prop :=
  ∀ (b : Byte) (s : State) (c : Byte), s.col = some c →
    decode (BitVec.ofNat 9 b.toNat) = .enc b ∧
    ∃ bs : List Beat,
      exec (.enc b) s = .next { s with
        col := some (BitVec.ofNat 8 (refStep b.toNat c.toNat false).2),
        out := s.out ++ bs, callOpen := true } ∧
      bs.map beatPair = (refStep b.toNat c.toNat false).1 ∧
      1 ≤ bs.length ∧ bs.length ≤ 4 ∧ ∀ x ∈ bs, x.last = false

/-- R88: ENC_LAST completes whenever COL holds a value. The whole next state, its 3 or 4 beats, last = 1 on the final
LF alone, COL 0, and its word. -/
def Obligations.EncLastRunsEncodeStepWithLastOne : Prop :=
  ∀ (b : Byte) (s : State) (c : Byte), s.col = some c →
    decode (BitVec.ofNat 9 (256 + b.toNat)) = .encLast b ∧
    ∃ bs : List Beat,
      exec (.encLast b) s = .next { s with
        col := some 0#8, out := s.out ++ (bs ++ [⟨10#8, true⟩]), callOpen := false } ∧
      (bs ++ [(⟨10#8, true⟩ : Beat)]).map beatPair = (refStep b.toNat c.toNat true).1 ∧
      (bs.length = 2 ∨ bs.length = 3) ∧ (∀ x ∈ bs, x.last = false) ∧
      bs.getLast? = some ⟨13#8, false⟩

/-- R66: the four shapes of a command's beats, chosen by the escape decision and the line break. -/
def Obligations.BeatsHaveOneOfFourShapes : Prop :=
  ∀ (i : Instr) (s : State) (c : Byte), s.col = some c →
    ∃ t, exec i s = .next t ∧ t.out = s.out ++
      (let sv := (i.operand.toNat + 42) % 256
       let esc := refNeedsEscape sv c.toNat
       match esc, decide (128 ≤ c.toNat + if esc then 2 else 1) || i.isLast with
       | false, false => [⟨BitVec.ofNat 8 sv, false⟩]
       | true, false => [⟨61#8, false⟩, ⟨BitVec.ofNat 8 (sv + 64), false⟩]
       | false, true => [⟨BitVec.ofNat 8 sv, false⟩, ⟨13#8, false⟩, ⟨10#8, i.isLast⟩]
       | true, true =>
         [⟨61#8, false⟩, ⟨BitVec.ofNat 8 (sv + 64), false⟩, ⟨13#8, false⟩, ⟨10#8, i.isLast⟩] : List Beat)

/-- R22: no command leaves COL at or above LINE_LENGTH, from any state at all, and reset leaves it at 0. -/
def Obligations.CommandsLeaveColBelowLineLength : Prop :=
  (∀ (i : Instr) (s t : State), exec i s = .next t → ∃ c, t.col = some c ∧ c.toNat < 128) ∧
  ∀ s : State, s.assertReset.col = some 0#8

/-- R83: a tab or space that is the final byte of a call is escaped at COL 0 and at COL 127 only; anywhere else it is
emitted bare and followed by the call's line break. -/
def Obligations.TrailingTabOrSpaceIsBareMidLine : Prop :=
  ∀ (b : Byte) (s : State) (c : Byte), s.col = some c → (b.toNat + 42) % 256 ∈ [9, 32] →
    ∃ t, exec (.encLast b) s = .next t ∧ t.out = s.out ++
      (if c.toNat = 0 ∨ c.toNat = 127
        then [⟨61#8, false⟩, ⟨b + 106#8, false⟩, ⟨13#8, false⟩, ⟨10#8, true⟩]
        else [⟨b + 42#8, false⟩, ⟨13#8, false⟩, ⟨10#8, true⟩] : List Beat)

/-- The corner cases that R87 and R88 list, and those of vectors 2.3 and 2.4 of spec/95_test_vectors.md: ENC at COL 0, 125,
126 and 127 with a byte of each class of R92 that behaves specially there, the wrap corners 213, 214 and 255, and the call
left open after ENC's line break; ENC_LAST at COL 0, 126 and 127 and at every other COL, with one line break only. -/
def Obligations.CornerCasesAtTheLineEdges : Prop :=
  ∀ s : State,
    -- ENC at COL 0
    (s.col = some 0#8 →
      (∀ b ∈ escapableInputs, exec (.enc b) s =
        .next (s.afterBeats 2#8 true [⟨61#8, false⟩, ⟨b + 106#8, false⟩])) ∧
      (∀ b ∉ escapableInputs, exec (.enc b) s = .next (s.afterBeats 1#8 true [⟨b + 42#8, false⟩])) ∧
      exec (.enc 213#8) s = .next (s.afterBeats 1#8 true [⟨255#8, false⟩]) ∧
      exec (.enc 214#8) s = .next (s.afterBeats 2#8 true [⟨61#8, false⟩, ⟨64#8, false⟩]) ∧
      exec (.enc 255#8) s = .next (s.afterBeats 1#8 true [⟨41#8, false⟩])) ∧
    -- ENC at COL 125: an escape reaches 127, with no line break
    (s.col = some 125#8 → ∀ b ∈ alwaysEscapedInputs, exec (.enc b) s =
      .next (s.afterBeats 127#8 true [⟨61#8, false⟩, ⟨b + 106#8, false⟩])) ∧
    -- ENC at COL 126
    (s.col = some 126#8 →
      (∀ b ∈ alwaysEscapedInputs, exec (.enc b) s = .next (s.afterBeats 0#8 true
        [⟨61#8, false⟩, ⟨b + 106#8, false⟩, ⟨13#8, false⟩, ⟨10#8, false⟩])) ∧
      ∀ b ∉ alwaysEscapedInputs, exec (.enc b) s = .next (s.afterBeats 127#8 true [⟨b + 42#8, false⟩])) ∧
    -- ENC at COL 127
    (s.col = some 127#8 →
      (∀ b ∈ wsInputs ++ alwaysEscapedInputs, exec (.enc b) s = .next (s.afterBeats 0#8 true
        [⟨61#8, false⟩, ⟨b + 106#8, false⟩, ⟨13#8, false⟩, ⟨10#8, false⟩])) ∧
      ∀ b ∉ wsInputs ++ alwaysEscapedInputs, exec (.enc b) s = .next (s.afterBeats 0#8 true
        [⟨b + 42#8, false⟩, ⟨13#8, false⟩, ⟨10#8, false⟩])) ∧
    -- ENC_LAST at COL 0
    (s.col = some 0#8 →
      (∀ b ∈ escapableInputs, exec (.encLast b) s = .next (s.afterBeats 0#8 false
        [⟨61#8, false⟩, ⟨b + 106#8, false⟩, ⟨13#8, false⟩, ⟨10#8, true⟩])) ∧
      ∀ b ∉ escapableInputs, exec (.encLast b) s = .next (s.afterBeats 0#8 false
        [⟨b + 42#8, false⟩, ⟨13#8, false⟩, ⟨10#8, true⟩])) ∧
    -- ENC_LAST at COL 127
    (s.col = some 127#8 →
      (∀ b ∈ wsInputs ++ alwaysEscapedInputs, exec (.encLast b) s = .next (s.afterBeats 0#8 false
        [⟨61#8, false⟩, ⟨b + 106#8, false⟩, ⟨13#8, false⟩, ⟨10#8, true⟩])) ∧
      ∀ b ∉ wsInputs ++ alwaysEscapedInputs, exec (.encLast b) s = .next (s.afterBeats 0#8 false
        [⟨b + 42#8, false⟩, ⟨13#8, false⟩, ⟨10#8, true⟩])) ∧
    -- ENC_LAST at every other COL, 126 among them
    ∀ c : Byte, c ≠ 0#8 → c ≠ 127#8 → s.col = some c →
      (∀ b ∈ alwaysEscapedInputs, exec (.encLast b) s = .next (s.afterBeats 0#8 false
        [⟨61#8, false⟩, ⟨b + 106#8, false⟩, ⟨13#8, false⟩, ⟨10#8, true⟩])) ∧
      ∀ b ∉ alwaysEscapedInputs, exec (.encLast b) s = .next (s.afterBeats 0#8 false
        [⟨b + 42#8, false⟩, ⟨13#8, false⟩, ⟨10#8, true⟩])

/-- The frame of both commands: OUT only grows at its end, by the command's 1 to 4 beats (3 or 4 for ENC_LAST), and
nothing else changes but COL and the call in progress. There are no flags, registers or memory to keep. -/
def Obligations.CommandFrame : Prop :=
  ∀ (i : Instr) (s t : State), exec i s = .next t →
    (∃ bs, t.out = s.out ++ bs ∧ (if i.isLast then 3 else 1) ≤ bs.length ∧ bs.length ≤ 4) ∧
    t.delivered = s.delivered ∧ t.outCapacity = s.outCapacity ∧ t.input = s.input ∧
    t.outReady = s.outReady ∧ t.callOpen = !i.isLast

/-- R65: of the beats a command emits, last is 1 exactly on the final one of an ENC_LAST, which is an LF. -/
def Obligations.LastFlagMarksTheFinalLf : Prop :=
  ∀ (i : Instr) (s t : State), exec i s = .next t →
    ∃ bs, t.out = s.out ++ bs ∧ ∀ (k : Nat) (x : Beat), bs[k]? = some x →
      (x.last = true ↔ i.isLast = true ∧ k + 1 = bs.length) ∧ (x.last = true → x.data = 10#8)

/-- R99: ENC and ENC_LAST of one byte at one COL emit the same units; the line break depends on the escape only
through the column advance. -/
def Obligations.EscapeDoesNotDependOnTheLineBreak : Prop :=
  ∀ (b : Byte) (s : State) (c : Byte), s.col = some c →
    ∃ units brk t₁ t₂, exec (.enc b) s = .next t₁ ∧ exec (.encLast b) s = .next t₂ ∧
      t₁.out = s.out ++ (units ++ brk) ∧
      t₂.out = s.out ++ (units ++ [⟨13#8, false⟩, ⟨10#8, true⟩]) ∧
      (units.length = if needsEscape (shifted b) c then 2 else 1) ∧
      brk = if 128 ≤ c.toNat + units.length then [⟨13#8, false⟩, ⟨10#8, false⟩] else []

/-- R122 case 1, R142: before the first reset COL holds no value, and a command has no step: it stops by name. -/
def Obligations.CommandBeforeResetHasNoStep : Prop :=
  ∀ s : State, s.col = none →
    (∀ i : Instr, exec i s = .fault .commandBeforeReset) ∧
    ∀ w rest, s.input = .command w :: rest → step s = .fault .commandBeforeReset

/-! ### Reset and the host's side -/

/-- R140, R56: reset sets COL to 0, abandons the call, emits no beat, takes no command and keeps every beat of OUT_HIST in
its place; OUT is unchanged but for the one beat that the host takes if it is ready in that step. That a beat may be
transferred in a reset step is DEDUCED from R56 (log entry 13). -/
def Obligations.ResetClearsColAndKeepsTheBeats : Prop :=
  ∀ (s : State) (a : Arrival) (rest : List Arrival), s.input = a :: rest →
    (a = .reset ∨ ∃ w, a = .resetWithCommand w) →
    ∃ t, step s = .next t ∧ t.col = some 0#8 ∧ t.callOpen = false ∧ t.outHist = s.outHist ∧
      t.input = rest ∧ (s.outReady.head? ≠ some true → t.out = s.out) ∧
      (s.outReady.head? = some true → t.out = s.out.tail)

/-- R124: when reset and a command come in the same step, reset wins: the step is that of reset alone. -/
def Obligations.ResetWinsOverACommand : Prop :=
  ∀ (s : State) (w : CmdWord) (rest : List Arrival),
    step { s with input := .resetWithCommand w :: rest } = step { s with input := .reset :: rest }

/-- R141, R142, R143: power-on has no value in COL and an empty OUT; one reset gives the reset state. -/
def Obligations.OneResetAfterPowerOnIsEnough : Prop :=
  State.powerOn.col = none ∧ State.powerOn.out = [] ∧ State.powerOn.outHist = [] ∧
  step { State.powerOn with input := [.reset] } = .next State.reset ∧
  State.reset.col = some 0#8 ∧ State.reset.callOpen = false ∧ State.reset.outHist = []

/-- R131: while no command and no reset arrives, a step keeps COL, the call in progress and OUT_HIST. -/
def Obligations.IdleStepsKeepCol : Prop :=
  ∀ s : State, s.input = [] ∨ s.input.head? = some .idle →
    ∃ t, step s = .next t ∧ t.col = s.col ∧ t.callOpen = s.callOpen ∧ t.outHist = s.outHist ∧
      t.input = s.input.tail

/-- R144: at every call boundary COL is 0: after a reset and after an ENC_LAST. -/
def Obligations.CallBoundariesHaveColZero : Prop :=
  (∀ s : State, s.assertReset.col = some 0#8 ∧ s.assertReset.callOpen = false) ∧
  ∀ (b : Byte) (s t : State), exec (.encLast b) s = .next t → t.col = some 0#8 ∧ t.callOpen = false

/-- R47, R44: a beat the host takes leaves OUT from its head, once, and OUT_HIST keeps it in its place; when the host
is not ready or there is no beat, nothing is taken. -/
def Obligations.TakingABeatMovesItOnce : Prop :=
  ∀ s : State,
    (∀ x bs, s.out = x :: bs → s.outReady.head? = some true →
      s.serveOutput.out = bs ∧ s.serveOutput.delivered = s.delivered ++ [x]) ∧
    (s.out = [] ∨ s.outReady.head? ≠ some true →
      s.serveOutput.out = s.out ∧ s.serveOutput.delivered = s.delivered) ∧
    s.serveOutput.outHist = s.outHist

/-! ### The step -/

/-- A step whose next arrival is a command that does not stall runs exactly the decoded instruction, on the state in
which the host's beat is taken and the command has left the input stream. -/
def Obligations.StepRunsTheDecodedCommand : Prop :=
  ∀ (s : State) (w : CmdWord) (rest : List Arrival), s.input = .command w :: rest →
    s.stalled (decode w) = false →
    step s = exec (decode w) { s.serveOutput with input := rest }

/-- A word placed by withFetchWord is run by the very next step, as the first command after reset; the placing is the
model's own (log entry 4). -/
def Obligations.PlacedWordRunsNext : Prop :=
  ∀ (w : Nat) (i : Instr), decodeTableWord 16 w = some i →
    step (State.reset.withFetchWord 16 w) = exec i State.reset

/-- R52: a presented command is not taken exactly when its beats do not all fit in bounded storage: then the step keeps it on
the input stream and drops nothing; otherwise the step takes it, with all its beats. With unbounded OUT it is always taken.
That room is judged on OUT as it stood before the step is the model's choice (log entry 5), and so is that the command
stays presented (log entry 15). -/
def Obligations.StalledCommandWaits : Prop :=
  ∀ (s : State) (w : CmdWord) (rest : List Arrival) (c : Byte),
    s.input = .command w :: rest → s.col = some c →
    (s.stalled (decode w) = true ↔ ∃ n, s.outCapacity = some n ∧
      n < s.out.length + (refStep (decode w).operand.toNat c.toNat (decode w).isLast).1.length) ∧
    (s.outCapacity = none → s.stalled (decode w) = false) ∧
    (s.stalled (decode w) = true → ∃ t, step s = .next t ∧ t.input = s.input ∧ t.col = s.col ∧
      t.callOpen = s.callOpen ∧ t.outHist = s.outHist ∧ t.outCapacity = s.outCapacity) ∧
    (s.stalled (decode w) = false → ∃ t bs, step s = .next t ∧ t.input = rest ∧
      t.outHist = s.outHist ++ bs ∧
      bs.map beatPair = (refStep (decode w).operand.toNat c.toNat (decode w).isLast).1 ∧
      step s = exec (decode w) { s.serveOutput with input := rest })

/-- R46, R52, R140, R24: a command is not taken or taken whole. Each step does one of three things. It takes nothing and emits nothing: it
was idle, nothing was presented, or the command presented stalls and stays presented. Or it is a reset, which alone leaves
the input stream and emits nothing. Or one command leaves the input stream and all its 1 to 4 beats and its COL are
written. Nothing else writes COL (R24). That a stalled command stays presented is the model's choice (log entry 15), as is
when room is judged (log entry 5). -/
def Obligations.StepsAreAtomic : Prop :=
  ∀ s t : State, step s = .next t →
    (t.outHist = s.outHist ∧ t.col = s.col ∧ t.callOpen = s.callOpen ∧
      (s.input = .idle :: t.input ∨ (t.input = s.input ∧ (s.input = [] ∨
        ∃ w rest, s.input = .command w :: rest ∧ s.stalled (decode w) = true)))) ∨
    (t.outHist = s.outHist ∧ t.col = some 0#8 ∧ t.callOpen = false ∧
      ∃ a, s.input = a :: t.input ∧ (a = .reset ∨ ∃ w, a = .resetWithCommand w)) ∨
    ∃ w c bs, s.input = .command w :: t.input ∧ s.col = some c ∧ t.outHist = s.outHist ++ bs ∧
      1 ≤ bs.length ∧ bs.length ≤ 4 ∧
      bs.map beatPair = (refStep (decode w).operand.toNat c.toNat (decode w).isLast).1 ∧
      t.col = some (BitVec.ofNat 8
        (refStep (decode w).operand.toNat c.toNat (decode w).isLast).2) ∧
      t.callOpen = !(decode w).isLast

/-- R120: the block raises no exception: a step stops exactly where a command is taken before the first reset, and no
step is refused. -/
def Obligations.OnlyAnUnresetBlockStops : Prop :=
  ∀ s : State,
    ((∃ f, step s = .fault f) ↔ s.col = none ∧ ∃ w rest, s.input = .command w :: rest) ∧
    ∀ r, step s ≠ .refused r

/-- R30, R47: a step never loses or reorders an emitted beat: OUT_HIST only grows at its end, and the beats taken only
grow at their end. -/
def Obligations.OutHistOnlyGrows : Prop :=
  ∀ s t : State, step s = .next t →
    s.outHist <+: t.outHist ∧ s.delivered <+: t.delivered ∧ t.delivered <+: t.outHist

/-- R56: the port binding. On an edge with rst 0, cmd_valid and cmd_ready both 1 the command is taken; on any other edge
no beat is emitted. A beat is transferred exactly where out_valid and out_ready are both 1, and is held steady
until then. -/
def Obligations.PortHandshakes : Prop :=
  ∀ (p : PortIn) (s : State),
    (p.rst = false → p.cmdValid = true → s.cmdReady p = true →
      clockEdge p s = exec (decode p.cmdData) { (s.drive p).serveOutput with input := [] }) ∧
    ∀ t, clockEdge p s = .next t →
      ((p.rst = true ∨ p.cmdValid = false ∨ s.cmdReady p = false) → t.outHist = s.outHist) ∧
      (p.outReady = true → t.delivered = s.delivered ++ s.outBeat.toList) ∧
      (p.outReady = false → t.delivered = s.delivered) ∧
      ∀ x, s.outBeat = some x → p.outReady = false → t.outBeat = some x

/-! ### Invariants, safety, progress -/

/-- The invariant holds at power-on and right after reset. -/
def Obligations.ResetStateMeetsTheInvariant : Prop := State.reset.Inv ∧ State.powerOn.Inv

/-- R22, R144, R52, R65 as one invariant, from every state that meets it: COL stays below LINE_LENGTH and is 0 at every
call boundary, OUT stays within its capacity, last = 1 stands on LF beats only. -/
def Obligations.EveryStepKeepsTheInvariant : Prop :=
  ∀ s t : State, s.Inv → step s = .next t → t.Inv

/-- R120, R143: while the host keeps its first duty, every step answers a next state, and the duty stays kept. -/
def Obligations.SafeStatesNeverStop : Prop :=
  ∀ s : State, s.safe = true → ∃ t, step s = .next t ∧ t.safe = true

/-- R30, R31, R49, R52: what OUT_HIST will be in the end is the same before and after every step, so no stall, no
capacity and no pace of the host changes an emitted beat. The end is that of the one input list that the state holds: that
a stalled command, and everything listed behind it, is still served is the model's choice (log entry 15). -/
def Obligations.EveryStepKeepsTheFinalOutput : Prop :=
  ∀ s t : State, step s = .next t → t.finalHist = s.finalHist

/-- R52, R147: with unbounded OUT every step takes its arrival, so that after as many steps as there are arrivals every
one is taken and OUT_HIST is all of them emitted. -/
def Obligations.UnboundedOutputTakesEveryArrival : Prop :=
  ∀ s : State, s.outCapacity = none → s.safe = true →
    ∃ t, stepMany s.input.length s = .next t ∧ t.input = [] ∧ t.outHist = s.finalHist

/-- R147 with D25: storage for one command's four beats is enough: while the host takes beats and keeps its next command
presented, that command is taken. That it takes at most one step more than there are beats in OUT rests on how the model
judges room (log entry 5), since R147 is untimed; that the command stays presented is log entry 15. -/
def Obligations.DrainedBlockTakesTheNextCommand : Prop :=
  ∀ (s : State) (w : CmdWord) (rest : List Arrival), s.col.isSome = true →
    s.input = .command w :: rest → (∀ n, s.outCapacity = some n → 4 ≤ n) →
    (∀ k, k < s.out.length → s.outReady[k]? = some true) →
    ∃ k t, k ≤ s.out.length + 1 ∧ stepMany k s = .next t ∧ t.input = rest

/-! ### Whole calls (spec/40_encode.md R89 to R100) -/

/-- R89, R97: the commands of a call, run from COL 0 in any state at all, append the call's beats and nothing else; their
data bytes are the spec's encode(x), computed on integers. The empty call does nothing. -/
def Obligations.CallComputesEncode : Prop :=
  ∀ (xs : List Byte) (s : State), s.col = some 0#8 →
    runInstrs (callInstrs xs) s = .next { s with
      out := s.out ++ callBeats escUnits 0#8 xs,
      callOpen := if xs.isEmpty then s.callOpen else false } ∧
    (encodeCall escUnits xs).map BitVec.toNat = refCall 0 (xs.map BitVec.toNat) ∧
    (xs ≠ [] → ∃ o, encodeCall escUnits xs = o ++ [13#8, 10#8])

/-- R49, R97: among any arrivals, a call that starts where COL is 0 contributes exactly its own beats, whatever came
before it and whatever comes after, and leaves COL at 0 again. -/
def Obligations.CallsAreIndependent : Prop :=
  ∀ (col : Option Byte) (before after : List Arrival) (xs : List Byte),
    arrivalCol col before = some 0#8 →
    arrivalBeats col (before ++ assembleLine (.encode xs) ++ after) =
      arrivalBeats col before ++ callBeats escUnits 0#8 xs ++ arrivalBeats (some 0#8) after ∧
    arrivalCol col (before ++ assembleLine (.encode xs)) = some 0#8

/-- R54, R90: what the host has taken of a call's beats holds a beat with last = 1 exactly when it has taken them all. -/
def Obligations.CallIsCompleteAtItsFinalBeat : Prop :=
  ∀ (xs : List Byte) (k : Nat), xs ≠ [] →
    (resultTaken ((callBeats escUnits 0#8 xs).take k) = true ↔ (callBeats escUnits 0#8 xs).length ≤ k)

/-- R100: the test oracle recovers the input from the output, for either value of ESC_UNITS. -/
def Obligations.DecodeRecoversTheInput : Prop :=
  ∀ (u : EscUnits) (xs : List Byte), decodeOutput (encodeCall u xs) = xs

/-- R93: the output alphabet, for either value of ESC_UNITS: escape pairs, bare values outside ALWAYS_ESC and CR LF
pairs; no line starts with a bare 9, 32 or 46, and none but the last ends with a bare 9 or 32. -/
def Obligations.OutputAlphabet : Prop :=
  ∀ (u : EscUnits) (xs : List Byte),
    alphabetOk (encodeCall u xs) = true ∧ 0#8 ∉ encodeCall u xs ∧
    (∀ l ∈ outputLines (encodeCall u xs), ∀ x, l.head? = some x → x ∉ [9#8, 32#8, 46#8]) ∧
    ∀ l ∈ (outputLines (encodeCall u xs)).dropLast, ∀ x, l.getLast? = some x → x ∉ [9#8, 32#8]

/-- R94: every line holds at least 1 and at most LINE_LENGTH - 1 + ESC_UNITS units; with ESC_UNITS = 2 a line's units
are its data bytes, and a line can reach 129; with 1 it holds at most 128 units (input bytes) in at most 256 data
bytes. -/
def Obligations.LineWidthBound : Prop :=
  (∀ (u : EscUnits) (xs : List Byte), ∀ l ∈ outputLines (encodeCall u xs),
    1 ≤ unitsOf u l ∧ unitsOf u l ≤ 127 + u.count ∧
    (u = .two → unitsOf u l = l.length ∧ l.length ≤ 129) ∧
    (u = .one → unitsOf u l ≤ 128 ∧ l.length ≤ 256)) ∧
  ∃ xs : List Byte, ∃ l ∈ outputLines (encodeCall .two xs), unitsOf .two l = 129

/-- R95: with ESC_UNITS = 2 every line but the last holds 128 or 129 data bytes, 129 exactly when it ends with an escape
pair that started at COL 127, and the last holds 1 to 129; with 1 every line but the last holds 128 input bytes. -/
def Obligations.LineLengths : Prop :=
  ∀ xs : List Byte,
    (∀ l ∈ (outputLines (encodeCall .two xs)).dropLast, (l.length = 128 ∨ l.length = 129) ∧
      (l.length = 129 ↔ ∃ v, l = l.take 127 ++ [61#8, v])) ∧
    (∀ l, (outputLines (encodeCall .two xs)).getLast? = some l → 1 ≤ l.length ∧ l.length ≤ 129) ∧
    ∀ l ∈ (outputLines (encodeCall .one xs)).dropLast, unitsOf .one l = 128

/-- R96: the output length is n + E + 2 L, with the bounds for each value of ESC_UNITS, the first of them reached. -/
def Obligations.OutputLength : Prop :=
  (∀ (u : EscUnits) (xs : List Byte),
    (encodeCall u xs).length =
      xs.length + escapedCount u 0#8 xs + 2 * (outputLines (encodeCall u xs)).length ∧
    ((outputLines (encodeCall u xs)).length = 0 ↔ xs = []) ∧
    (xs ≠ [] → xs.length + 2 ≤ (encodeCall u xs).length)) ∧
  (∀ xs : List Byte, xs ≠ [] →
    (encodeCall .two xs).length ≤ 2 * xs.length + 2 * (xs.length / 64) + 2) ∧
  (∀ xs : List Byte, (outputLines (encodeCall .one xs)).length = (xs.length + 127) / 128 ∧
    (encodeCall .one xs).length ≤ 2 * xs.length + 2 * ((xs.length + 127) / 128)) ∧
  (encodeCall .two (List.replicate 65 0xD6#8)).length = 134

/-- R98: after any ENCs from a call boundary, COL is the number of data bytes emitted since the last line break. -/
def Obligations.ColCountsDataBytesSinceTheBreak : Prop :=
  ∀ (xs : List Byte) (s : State), s.col = some 0#8 →
    ∃ t bs c, runInstrs (xs.map Instr.enc) s = .next t ∧ t.out = s.out ++ bs ∧ t.col = some c ∧
      c.toNat = sinceBreak (dataOf bs)

/-- R8, with 90_conflicts.md C1: the two values of ESC_UNITS give one output for every call in which no byte is escaped;
for the one input of vectors K9 and K10 of spec/95_test_vectors.md, which holds an escaped byte, they give the two
outputs listed there. Other inputs with escaped bytes may give one output for both. -/
def Obligations.EscUnitsMattersOnlyWithEscapes : Prop :=
  (∀ xs : List Byte, escapedCount .two 0#8 xs = 0 →
    callBeats .one 0#8 xs = callBeats .two 0#8 xs) ∧
  encodeCall .two (List.replicate 126 0x01#8 ++ [0xD6#8, 0x01#8]) =
    List.replicate 126 0x2B#8 ++ [0x3D#8, 0x40#8, 0x0D#8, 0x0A#8, 0x2B#8, 0x0D#8, 0x0A#8] ∧
  encodeCall .one (List.replicate 126 0x01#8 ++ [0xD6#8, 0x01#8]) =
    List.replicate 126 0x2B#8 ++ [0x3D#8, 0x40#8, 0x2B#8, 0x0D#8, 0x0A#8]

/-- R140 in a step in which no beat is transferred: COL is 0, the call is abandoned, no beat is emitted and OUT is
unchanged. -/
def Obligations.ResetLeavesOutUnchanged : Prop :=
  ∀ (s : State) (a : Arrival) (rest : List Arrival), s.input = a :: rest →
    (a = .reset ∨ ∃ w, a = .resetWithCommand w) → s.outReady.head? ≠ some true →
    ∃ t, step s = .next t ∧ t.col = some 0#8 ∧ t.callOpen = false ∧ t.out = s.out ∧
      t.delivered = s.delivered ∧ t.input = rest

/-- R98 as an invariant of the step: where COL is the number of bytes of OUT_HIST after its last LF, every step that is no
reset keeps it so. A reset in mid-call sets COL to 0 and leaves the abandoned call's beats in OUT_HIST, so it is left
out. -/
def Obligations.StepsKeepColTheBytesSinceTheBreak : Prop :=
  ∀ (s t : State) (c : Byte), s.col = some c → c.toNat = sinceBreak (dataOf s.outHist) →
    s.input.head? ≠ some .reset → (∀ w, s.input.head? ≠ some (.resetWithCommand w)) →
    step s = .next t → ∃ d, t.col = some d ∧ d.toNat = sinceBreak (dataOf t.outHist)
end

