-- ==== Sys2Proof/Laws/State.lean ====
section
/-! SUPPORT. One lemma per field per update of the state, so that no later proof unfolds a record update. -/

namespace Sys2Proof.Machine

variable (s : State) (bs : List Beat) (v : Byte) (o : Bool) (w : CmdWord)

@[simp] theorem State.emit_col : (s.emit bs).col = s.col := rfl
@[simp] theorem State.emit_out : (s.emit bs).out = s.out ++ bs := rfl
@[simp] theorem State.emit_callOpen : (s.emit bs).callOpen = s.callOpen := rfl
@[simp] theorem State.emit_delivered : (s.emit bs).delivered = s.delivered := rfl
@[simp] theorem State.emit_outCapacity : (s.emit bs).outCapacity = s.outCapacity := rfl
@[simp] theorem State.emit_input : (s.emit bs).input = s.input := rfl
@[simp] theorem State.emit_outReady : (s.emit bs).outReady = s.outReady := rfl

@[simp] theorem State.writeCol_col : (s.writeCol v).col = some v := rfl
@[simp] theorem State.writeCol_out : (s.writeCol v).out = s.out := rfl
@[simp] theorem State.writeCol_callOpen : (s.writeCol v).callOpen = s.callOpen := rfl
@[simp] theorem State.writeCol_delivered : (s.writeCol v).delivered = s.delivered := rfl
@[simp] theorem State.writeCol_outCapacity : (s.writeCol v).outCapacity = s.outCapacity := rfl
@[simp] theorem State.writeCol_input : (s.writeCol v).input = s.input := rfl
@[simp] theorem State.writeCol_outReady : (s.writeCol v).outReady = s.outReady := rfl

@[simp] theorem State.setCallOpen_col : (s.setCallOpen o).col = s.col := rfl
@[simp] theorem State.setCallOpen_out : (s.setCallOpen o).out = s.out := rfl
@[simp] theorem State.setCallOpen_callOpen : (s.setCallOpen o).callOpen = o := rfl
@[simp] theorem State.setCallOpen_delivered : (s.setCallOpen o).delivered = s.delivered := rfl
@[simp] theorem State.setCallOpen_outCapacity : (s.setCallOpen o).outCapacity = s.outCapacity := rfl
@[simp] theorem State.setCallOpen_input : (s.setCallOpen o).input = s.input := rfl
@[simp] theorem State.setCallOpen_outReady : (s.setCallOpen o).outReady = s.outReady := rfl

@[simp] theorem State.assertReset_col : s.assertReset.col = some 0#8 := rfl
@[simp] theorem State.assertReset_out : s.assertReset.out = s.out := rfl
@[simp] theorem State.assertReset_callOpen : s.assertReset.callOpen = false := rfl
@[simp] theorem State.assertReset_delivered : s.assertReset.delivered = s.delivered := rfl
@[simp] theorem State.assertReset_outCapacity : s.assertReset.outCapacity = s.outCapacity := rfl
@[simp] theorem State.assertReset_input : s.assertReset.input = s.input := rfl
@[simp] theorem State.assertReset_outReady : s.assertReset.outReady = s.outReady := rfl

@[simp] theorem State.presentWord_col : (s.presentWord w).col = s.col := rfl
@[simp] theorem State.presentWord_out : (s.presentWord w).out = s.out := rfl
@[simp] theorem State.presentWord_callOpen : (s.presentWord w).callOpen = s.callOpen := rfl
@[simp] theorem State.presentWord_delivered : (s.presentWord w).delivered = s.delivered := rfl
@[simp] theorem State.presentWord_outCapacity : (s.presentWord w).outCapacity = s.outCapacity := rfl
@[simp] theorem State.presentWord_input : (s.presentWord w).input = .command w :: s.input := rfl
@[simp] theorem State.presentWord_outReady : (s.presentWord w).outReady = s.outReady := rfl

/-! Taking a beat moves it from OUT to the delivered beats and touches nothing else. -/

@[simp] theorem State.takeBeat_col : s.takeBeat.col = s.col := by
  unfold State.takeBeat; split <;> rfl
@[simp] theorem State.takeBeat_callOpen : s.takeBeat.callOpen = s.callOpen := by
  unfold State.takeBeat; split <;> rfl
@[simp] theorem State.takeBeat_outCapacity : s.takeBeat.outCapacity = s.outCapacity := by
  unfold State.takeBeat; split <;> rfl
@[simp] theorem State.takeBeat_input : s.takeBeat.input = s.input := by
  unfold State.takeBeat; split <;> rfl
@[simp] theorem State.takeBeat_out : s.takeBeat.out = s.out.tail := by
  unfold State.takeBeat; split <;> simp_all
@[simp] theorem State.takeBeat_delivered : s.takeBeat.delivered = s.delivered ++ s.out.head?.toList := by
  unfold State.takeBeat; split <;> simp_all
@[simp] theorem State.takeBeat_outHist : s.takeBeat.outHist = s.outHist := by
  unfold State.outHist State.takeBeat; split <;> simp_all

@[simp] theorem State.serveOutput_col : s.serveOutput.col = s.col := by
  unfold State.serveOutput; split
  · rfl
  · split <;> simp
@[simp] theorem State.serveOutput_callOpen : s.serveOutput.callOpen = s.callOpen := by
  unfold State.serveOutput; split
  · rfl
  · split <;> simp
@[simp] theorem State.serveOutput_outCapacity : s.serveOutput.outCapacity = s.outCapacity := by
  unfold State.serveOutput; split
  · rfl
  · split <;> simp
@[simp] theorem State.serveOutput_input : s.serveOutput.input = s.input := by
  unfold State.serveOutput; split
  · rfl
  · split <;> simp
@[simp] theorem State.serveOutput_outReady : s.serveOutput.outReady = s.outReady.tail := by
  unfold State.serveOutput; split
  · simp_all
  · split <;> simp_all

/-- The beats in OUT_HIST do not change when the host takes one (spec/10_state.md R30). -/
@[simp] theorem State.serveOutput_outHist : s.serveOutput.outHist = s.outHist := by
  unfold State.serveOutput
  split
  · rfl
  · split
    · exact s.takeBeat_outHist
    · rfl

/-- OUT after the host's part of a step: less its head exactly when the host is ready. -/
theorem State.serveOutput_out :
    s.serveOutput.out = if s.outReady.head? = some true then s.out.tail else s.out := by
  unfold State.serveOutput
  split
  · simp_all
  · split <;> simp_all

/-- The beats taken after the host's part of a step: OUT's head is added exactly when the host is ready. -/
theorem State.serveOutput_delivered :
    s.serveOutput.delivered =
      if s.outReady.head? = some true then s.delivered ++ s.out.head?.toList else s.delivered := by
  unfold State.serveOutput
  split
  · simp_all
  · split <;> simp_all

/-- OUT never grows when the host takes a beat. -/
theorem State.serveOutput_out_length_le : s.serveOutput.out.length ≤ s.out.length := by
  rw [s.serveOutput_out]; split <;> simp

end Sys2Proof.Machine
end

