-- ==== Sys2Proof/Laws/Ops.lean ====
section
/-! SUPPORT. What the shared operations can do, each said once. -/

namespace Sys2Proof.Machine

/-- With a value in COL, EncodeStep answers a next state, this one. -/
theorem encodeStep_some {u : EscUnits} {b : Byte} {last : Bool} {s : State} {c : Byte}
    (h : s.col = some c) :
    encodeStep u b last s =
      .next (((s.emit (burst u b last c)).writeCol (nextCol u b last c)).setCallOpen (!last)) := by
  simp only [encodeStep, h]

/-- With no value in COL, EncodeStep has no step. -/
theorem encodeStep_none {u : EscUnits} {b : Byte} {last : Bool} {s : State} (h : s.col = none) :
    encodeStep u b last s = .fault .commandBeforeReset := by
  simp only [encodeStep, h]

/-- Everything EncodeStep can do when it answers a next state. -/
theorem encodeStep_next {u : EscUnits} {b : Byte} {last : Bool} {s t : State}
    (h : encodeStep u b last s = .next t) :
    ∃ c, s.col = some c ∧
      t = ((s.emit (burst u b last c)).writeCol (nextCol u b last c)).setCallOpen (!last) := by
  cases hc : s.col with
  | none => rw [encodeStep_none hc] at h; cases h
  | some c => rw [encodeStep_some hc] at h; exact ⟨c, rfl, by simpa using h.symm⟩

/-- The line break condition as a proposition. -/
theorem breaksLine_iff {c : Nat} {last : Bool} :
    breaksLine c last = true ↔ 128 ≤ c ∨ last = true := by
  rw [breaksLine, Bool.or_eq_true, decide_eq_true_eq, lineLength]

/-- An escaped byte is one of the seven of the escaping rule table. -/
theorem needsEscape_mem {s col : Byte} (h : needsEscape s col = true) :
    s ∈ alwaysEsc ++ wsEsc ++ dotEsc := by
  unfold needsEscape at h
  simp only [List.contains_iff_mem] at h
  simp only [List.mem_append]
  split at h
  · exact .inl (.inl ‹_›)
  · split at h
    · exact .inl (.inr ‹_›)
    · split at h
      · exact .inr ‹_›
      · cases h

theorem valueBeats_length (s col : Byte) :
    (valueBeats s col).length = if needsEscape s col then 2 else 1 := by
  unfold valueBeats; split <;> rfl

/-- A command emits one to four beats (spec/30_encoding.md R66). -/
theorem burst_length (u : EscUnits) (b : Byte) (last : Bool) (col : Byte) :
    1 ≤ (burst u b last col).length ∧ (burst u b last col).length ≤ 4 := by
  unfold burst
  rw [List.length_append, valueBeats_length]
  split <;> split <;> simp [breakBeats]

/-- COL after a command is below LINE_LENGTH, whatever it was before (spec/10_state.md R22). -/
theorem nextCol_lt (u : EscUnits) (b : Byte) (last : Bool) (col : Byte) :
    (nextCol u b last col).toNat < 128 := by
  unfold nextCol
  split
  · decide
  · have h : ¬ 128 ≤ columnAfter u (shifted b) col := fun hle =>
      ‹¬ _› (breaksLine_iff.mpr (.inl hle))
    rw [BitVec.toNat_ofNat]
    omega

/-- A last byte leaves COL at 0 (spec/40_encode.md R86, R88). -/
@[simp] theorem nextCol_last (u : EscUnits) (b : Byte) (col : Byte) : nextCol u b true col = 0#8 := by
  simp [nextCol, breaksLine]

end Sys2Proof.Machine
end

