-- ==== Sys2Proof/Laws/PerInstr.lean ====
section
/-! SUPPORT. The facts said once per instruction, as syntax: the word of each constructor matches its row of the
opcode table. -/

namespace Sys2Proof.Laws.RowMatch

/-- The row's match value: 0x000 for ENC and 0x100 for ENC_LAST (spec/30_encoding.md R60). -/
def rowMatch : Instr → CmdWord
  | .enc _ => 0x000#9
  | .encLast _ => 0x100#9

/-- The instruction is well formed, and its word masked with the row's mask 0x100 is the row's match. -/
def Statement (i : Instr) : Prop := i.wf = true ∧ Sys2Proof.encode i &&& 0x100#9 = rowMatch i

theorem enc (b : Byte) : Statement (.enc b) := by
  refine ⟨decide_eq_true b.isLt, ?_⟩
  simp only [Sys2Proof.encode, rowMatch]
  revert b
  decide

theorem encLast (b : Byte) : Statement (.encLast b) := by
  refine ⟨decide_eq_true b.isLt, ?_⟩
  simp only [Sys2Proof.encode, rowMatch]
  revert b
  decide

end Sys2Proof.Laws.RowMatch
end

