-- ==== Sys2Proof/Laws/Step.lean ====
section
/-! SUPPORT. What exec, fetch and step can do, each said once; later proofs cite these and unfold none of them. -/

namespace Sys2Proof.Machine

/-- Both meanings are the shared EncodeStep with ESC_UNITS of this hardware. -/
theorem exec_eq (i : Instr) (s : State) :
    exec i s = encodeStep escUnits i.operand i.isLast s := by
  cases i <;> rfl

section AfterBeats

variable (s : State) (c : Byte) (o : Bool) (bs : List Beat)

@[simp] theorem State.afterBeats_col : (s.afterBeats c o bs).col = some c := rfl
@[simp] theorem State.afterBeats_out : (s.afterBeats c o bs).out = s.out ++ bs := rfl
@[simp] theorem State.afterBeats_callOpen : (s.afterBeats c o bs).callOpen = o := rfl
@[simp] theorem State.afterBeats_delivered : (s.afterBeats c o bs).delivered = s.delivered := rfl
@[simp] theorem State.afterBeats_outCapacity : (s.afterBeats c o bs).outCapacity = s.outCapacity := rfl
@[simp] theorem State.afterBeats_input : (s.afterBeats c o bs).input = s.input := rfl
@[simp] theorem State.afterBeats_outReady : (s.afterBeats c o bs).outReady = s.outReady := rfl

/-- Appended beats stand at the end of OUT_HIST. -/
@[simp] theorem State.afterBeats_outHist : (s.afterBeats c o bs).outHist = s.outHist ++ bs :=
  (List.append_assoc ..).symm

end AfterBeats

/-- With a value in COL a command answers a next state, this one. -/
theorem exec_some {i : Instr} {s : State} {c : Byte} (h : s.col = some c) :
    exec i s = .next (s.afterBeats (nextCol escUnits i.operand i.isLast c) (!i.isLast)
      (burst escUnits i.operand i.isLast c)) := by
  rw [exec_eq, encodeStep_some h]
  rfl

/-- The beats that stall accounting reckons with are those the command emits. -/
theorem State.pendingBeats_some {s : State} {c : Byte} (h : s.col = some c) (i : Instr) :
    s.pendingBeats i = burst escUnits i.operand i.isLast c := by
  cases i <;> simp [State.pendingBeats, h, Instr.operand, Instr.isLast]

/-- When a command stalls: OUT is bounded, COL holds a value, and the beats do not all fit. -/
theorem State.stalled_iff {s : State} {i : Instr} :
    s.stalled i = true ↔ ∃ n c, s.outCapacity = some n ∧ s.col = some c ∧
      n < s.out.length + (burst escUnits i.operand i.isLast c).length := by
  cases hn : s.outCapacity with
  | none => simp [State.stalled, hn]
  | some n =>
    cases hc : s.col with
    | none => simp [State.stalled, hn, hc]
    | some c => simp [State.stalled, hn, hc, State.pendingBeats_some hc]

/-- Everything fetch can do in a step that takes no command. -/
theorem State.fetch_hold {s t : State} (h : s.fetch = .hold t) :
    (s.input = [] ∧ t = s.serveOutput) ∨
    (∃ w rest, s.input = .command w :: rest ∧ s.stalled (decode w) = true ∧ t = s.serveOutput) ∨
    (∃ rest, s.input = .idle :: rest ∧ t = { s.serveOutput with input := rest }) ∨
    (∃ a rest, s.input = a :: rest ∧ (a = .reset ∨ ∃ w, a = .resetWithCommand w) ∧
      t = { s.serveOutput.assertReset with input := rest }) := by
  unfold State.fetch at h
  split at h
  · exact .inl ⟨‹_›, by simpa using h.symm⟩
  · exact .inr (.inr (.inl ⟨_, ‹_›, by simpa using h.symm⟩))
  · exact .inr (.inr (.inr ⟨_, _, ‹_›, .inl rfl, by simpa using h.symm⟩))
  · exact .inr (.inr (.inr ⟨_, _, ‹_›, .inr ⟨_, rfl⟩, by simpa using h.symm⟩))
  · split at h
    · exact .inr (.inl ⟨_, _, ‹_›, ‹_›, by simpa using h.symm⟩)
    · cases h

/-- Everything fetch can do in a step that takes a command. -/
theorem State.fetch_run {s t : State} {i : Instr} (h : s.fetch = .run i t) :
    ∃ w rest, s.input = .command w :: rest ∧ s.stalled (decode w) = false ∧ i = decode w ∧
      t = { s.serveOutput with input := rest } := by
  unfold State.fetch at h
  split at h
  · cases h
  · cases h
  · cases h
  · cases h
  · split at h
    · cases h
    · cases h; exact ⟨_, _, ‹_›, Bool.eq_false_iff.mpr ‹¬ _ = true›, rfl, rfl⟩

/-- Everything a step can do when it answers a next state: no command is taken, or one runs whole. -/
theorem step_next {s t : State} (h : step s = .next t) :
    s.fetch = .hold t ∨ ∃ i t₀ c, s.fetch = .run i t₀ ∧ s.col = some c ∧
      t = ((t₀.emit (burst escUnits i.operand i.isLast c)).writeCol
        (nextCol escUnits i.operand i.isLast c)).setCallOpen (!i.isLast) := by
  unfold step at h
  split at h
  · cases h; exact .inl ‹_›
  · rename_i i t₀ hf
    rw [exec_eq] at h
    obtain ⟨c, hc, rfl⟩ := encodeStep_next h
    obtain ⟨w, rest, -, -, -, rfl⟩ := State.fetch_run hf
    exact .inr ⟨i, _, c, hf, by simpa using hc, rfl⟩

/-- A step stops only where a command is taken while COL holds no value. -/
theorem step_fault {s : State} {f : Fault} (h : step s = .fault f) :
    f = .commandBeforeReset ∧ s.col = none ∧ ∃ w rest, s.input = .command w :: rest := by
  unfold step at h
  split at h
  · cases h
  · rename_i i t₀ hf
    obtain ⟨w, rest, hin, -, -, rfl⟩ := State.fetch_run hf
    rw [exec_eq] at h
    cases hc : s.col with
    | none =>
      rw [encodeStep_none (by simpa using hc)] at h
      cases h
      exact ⟨rfl, rfl, w, rest, hin⟩
    | some c => rw [encodeStep_some (c := c) (by simpa using hc)] at h; cases h

end Sys2Proof.Machine
end

