-- ==== Sys2Proof/Tests/Slice0.lean ====
section
/-! SUPPORT. The model's own tests. Every expected value is one of spec/95_test_vectors.md, whose ids (W, E, L, K, S, P)
name the tests, or is written out from the rule named. The second half shows, for every obligation with hypotheses,
that they can be met. -/

namespace Sys2Proof.Tests

open Sys2Proof Sys2Proof.Machine

/-- A small state: COL holds `c`, everything else is as after reset. -/
def atCol (c : Byte) : State := { State.reset with col := some c }

/-- `atCol` with a bounded OUT that holds `out`, and one command presented (vector S4). -/
def bounded (c : Byte) (n : Nat) (out : List Beat) (w : CmdWord) : State :=
  { atCol c with outCapacity := some n, out := out, input := [.command w] }

/-- One bare byte into a line, an escaped byte presented next. -/
def midLine : State := { atCol 1#8 with out := [⟨0x2B#8, false⟩], input := [.command 0x0D6#9] }

/-- The next state of an outcome, if it is one. -/
def after (o : Host.Outcome State Fault Refusal) : Option State :=
  match o with
  | .next t => some t
  | .fault _ => none
  | .refused _ => none

/-- The fault of an outcome, if it is one. -/
def faultOf (o : Host.Outcome State Fault Refusal) : Option Fault :=
  match o with
  | .next _ => none
  | .fault f => some f
  | .refused _ => none

/-- The beats and COL after one command word at COL `c`: what a row of vectors 2.3 and 2.4 shows. -/
def shows (c : Byte) (w : CmdWord) : Option (List Beat × Option Byte) :=
  (after (exec (decode w) (atCol c))).map fun t => (t.out, t.col)

/-- A beat with last = 0. -/
def bt (d : Byte) : Beat := ⟨d, false⟩

/-- The LF beat with last = 1. -/
def lfLast : Beat := ⟨0x0A#8, true⟩

/-! ### Well-formedness: an ill-formed number for each check -/

theorem test_wf_imm8 : wfImm8 255 = true ∧ wfImm8 256 = false := by decide
theorem test_wf_cmd_word : wfCmdWord 511 = true ∧ wfCmdWord 512 = false := by decide
theorem test_wf_instr : Instr.wf (.enc 0xFF#8) = true ∧ Instr.wf (.encLast 0#8) = true := by decide

/-! ### Decoding: words written out bit by bit from spec/30_encoding.md R60 -/

theorem test_decode_enc : decode 0b011010110#9 = .enc 0xD6#8 := by decide
theorem test_decode_enc_last : decode 0b111010110#9 = .encLast 0xD6#8 := by decide
theorem test_encode_enc : encode (.enc 0x41#8) = 0x041#9 := by decide
theorem test_encode_enc_last : encode (.encLast 0x41#8) = 0x141#9 := by decide
theorem test_decode_table_word :
    decodeTableWord 16 0x104 = some (.encLast 0x04#8) ∧ decodeTableWord 16 0x200 = none := by decide

/-! ### The constants of spec/00_scope.md R7, R8 and R15 -/

theorem test_constants : lineLength = 128 ∧ shift = 42#8 ∧ escapeByte = 61#8 ∧ escapeShift = 64#8 ∧
    cr = 13#8 ∧ lf = 10#8 ∧ escUnits.count = 2 := by decide
theorem test_value_sets : alwaysEsc = [0#8, 10#8, 13#8, 61#8] ∧ wsEsc = [9#8, 32#8] ∧
    dotEsc = [46#8] := by decide

/-! ### Shift and escape decision (vectors 2.1, 2.2) -/

theorem test_shift_corners :
    [0xD5#8, 0xD6#8, 0xFF#8, 0x04#8].map shifted = [0xFF#8, 0x00#8, 0x29#8, 0x2E#8] := by decide
theorem test_escape_ws : [0#8, 1#8, 126#8, 127#8].map (needsEscape 0x20#8) =
    [true, false, false, true] := by decide
theorem test_escape_dot : [0#8, 1#8, 126#8, 127#8].map (needsEscape 0x2E#8) =
    [true, false, false, false] := by decide

/-! ### ENC (vectors 2.3) -/

theorem test_E7 : shows 127#8 0x0DF#9 = some ([bt 0x3D#8, bt 0x49#8, bt 0x0D#8, bt 0x0A#8], some 0#8) := by
  decide
theorem test_E13 : shows 125#8 0x0D6#9 = some ([bt 0x3D#8, bt 0x40#8], some 127#8) := by decide

/-! ### ENC_LAST (vectors 2.4) -/

theorem test_L2 : shows 0#8 0x1D6#9 = some ([bt 0x3D#8, bt 0x40#8, bt 0x0D#8, lfLast], some 0#8) := by decide
theorem test_L5 : shows 126#8 0x1F6#9 = some ([bt 0x20#8, bt 0x0D#8, lfLast], some 0#8) := by decide

/-! ### Calls (W1 to W3, K12), ESC_UNITS = 1 against 2 at COL 126 (K9, K10), the oracle (2.6) -/

theorem test_W1_W2_W3 : encodeCall .two [] = [] ∧
    encodeCall .two [0xD6#8] = [0x3D#8, 0x40#8, 0x0D#8, 0x0A#8] ∧
    encodeCall .two [0x41#8] = [0x6B#8, 0x0D#8, 0x0A#8] := by decide
theorem test_K12 : encodeCall .two [0x17#8, 0xDF#8] = [0x41#8, 0x09#8, 0x0D#8, 0x0A#8] := by decide
theorem test_esc_units : nextCol .two 0xD6#8 false 126#8 = 0#8 ∧ nextCol .one 0xD6#8 false 126#8 = 127#8 := by
  decide
theorem test_decode_output :
    decodeOutput [0x3D#8, 0x6E#8, 0x20#8, 0x2E#8, 0x20#8, 0x0D#8, 0x0A#8] =
      [0x04#8, 0xF6#8, 0x04#8, 0xF6#8] := by decide

/-! ### Reset, power-on and stall (vectors 2.7) -/

theorem test_S1 :
    faultOf (step (State.powerOn.presentWord 0x041#9)) = some .commandBeforeReset := by decide
theorem test_S2 :
    after (step { atCol 77#8 with out := [bt 0x2B#8, bt 0x2B#8], input := [.reset] }) =
      some { atCol 0#8 with out := [bt 0x2B#8, bt 0x2B#8] } := by decide
theorem test_S3 :
    after (step { atCol 5#8 with input := [.resetWithCommand 0x041#9] }) = some (atCol 0#8) := by decide
theorem test_S4_held :
    after (step (bounded 5#8 2 [bt 0x2B#8] 0x0D6#9)) = some (bounded 5#8 2 [bt 0x2B#8] 0x0D6#9) := by decide
theorem test_S4_taken :
    (after (step (bounded 5#8 3 [bt 0x2B#8] 0x0D6#9))).map (fun t => (t.out, t.col, t.input)) =
      some ([bt 0x2B#8, bt 0x3D#8, bt 0x40#8], some 7#8, []) := by decide

/-! ### The assembler (spec/30_encoding.md R68; programs P1 and P5) -/

theorem test_asm_enc : parseLine ['e', 'n', 'c', ' ', '0', 'x', 'F', '6', ';', 'x'] =
    .ok (some (.enc 0xF6#8)) := by decide
theorem test_asm_enc_last_char : parseLine ['e', 'n', 'c', '.', 'l', 'a', 's', 't', ' ', '\'', 'A', '\''] =
    .ok (some (.encLast 65#8)) := by decide
theorem test_asm_range : parseLine ['e', 'n', 'c', ' ', '2', '5', '6'] = .error .outOfRange := by decide
theorem test_P5_words : assembleText [['r', 'e', 's', 'e', 't'],
      ['e', 'n', 'c', 'o', 'd', 'e', ' ', '"', 'y', 'E', 'n', 'c', '"']] =
    .ok [.reset, .command 0x079#9, .command 0x045#9, .command 0x06E#9, .command 0x163#9] := by decide

/-! ### Witnesses: the hypotheses of every obligation can be met -/

theorem witness_DecodeOfEncodeIsTheInstruction : Instr.wf (.encLast 0xFF#8) = true := by decide
theorem witness_EveryCommandWordIsLegal : (511 : Nat) < 512 := by decide
theorem witness_BitEightSelectsTheCommand : (255 : Nat) < 256 := by decide
theorem witness_ShiftAndEscapedValueAreByteSums :
    needsEscape 61#8 5#8 = true ∧ needsEscape 0#8 127#8 = true := by decide
theorem witness_SevenInputBytesCanBeEscaped : (atCol 127#8).col = some 127#8 ∧
    (Instr.encLast 0x14#8).operand ∉ [0x04#8, 0x13#8, 0xD6#8, 0xDF#8, 0xE0#8, 0xE3#8, 0xF6#8] := by decide
theorem witness_ColumnInsideAStepIsBounded :
    (127#8).toNat < 128 ∧ needsEscape 32#8 127#8 = true := by decide
/-- For every statement about a command whose only hypothesis is that COL holds a value: the pseudocode, ENC, ENC_LAST,
the four shapes, the escape beside the line break. -/
theorem witness_col_holds_a_value :
    State.reset.col = some 0#8 ∧ (atCol 127#8).col = some 127#8 := by decide
/-- For every statement about a next state of exec: COL below LINE_LENGTH, the frame, the last flag, the call
boundaries. -/
theorem witness_exec_answers_next :
    (after (exec (.enc 0xD6#8) (atCol 126#8))).isSome = true ∧
    (after (exec (.encLast 0x41#8) State.reset)).isSome = true := by decide
theorem witness_TrailingTabOrSpaceIsBareMidLine :
    ((0xDF#8).toNat + 42) % 256 ∈ [9, 32] ∧ ((0xF6#8).toNat + 42) % 256 ∈ [9, 32] ∧
    (atCol 0#8).col = some 0#8 ∧ (atCol 127#8).col = some 127#8 ∧ (atCol 1#8).col = some 1#8 := by decide
theorem witness_CornerCasesAtTheLineEdges :
    [0#8, 125#8, 126#8, 127#8, 1#8].map (fun c => (atCol c).col) =
      [some 0#8, some 125#8, some 126#8, some 127#8, some 1#8] ∧
    0x41#8 ∉ escapableInputs ∧ 0x04#8 ∉ wsInputs ++ alwaysEscapedInputs ∧ 0xF6#8 ∉ alwaysEscapedInputs ∧
    0x04#8 ∈ escapableInputs ∧ 0xDF#8 ∈ wsInputs ∧ 0xE3#8 ∈ alwaysEscapedInputs := by decide
theorem witness_CommandBeforeResetHasNoStep : (State.powerOn.presentWord 0x041#9).col = none ∧
    (State.powerOn.presentWord 0x041#9).input = .command 0x041#9 :: [] := by decide
theorem witness_ResetClearsColAndKeepsTheBeats :
    ({ atCol 77#8 with input := [.reset], outReady := [true] } : State).input = .reset :: [] ∧
    ({ atCol 77#8 with input := [.reset], outReady := [true] } : State).outReady.head? = some true ∧
    ({ atCol 77#8 with input := [.resetWithCommand 0#9] } : State).input = .resetWithCommand 0#9 :: [] ∧
    ({ atCol 77#8 with input := [.resetWithCommand 0#9] } : State).outReady.head? ≠ some true := by decide
theorem witness_IdleStepsKeepCol : State.reset.input = [] ∧
    ({ atCol 3#8 with input := [.idle] } : State).input.head? = some .idle := by decide
theorem witness_TakingABeatMovesItOnce :
    ({ State.reset with out := [bt 1#8], outReady := [true] } : State).out = bt 1#8 :: [] ∧
    ({ State.reset with out := [bt 1#8], outReady := [true] } : State).outReady.head? = some true ∧
    State.reset.out = [] ∧ State.reset.outReady.head? ≠ some true := by decide
theorem witness_StepRunsTheDecodedCommand :
    (State.reset.presentWord 0x1D6#9).input = .command 0x1D6#9 :: [] ∧
    (State.reset.presentWord 0x1D6#9).stalled (decode 0x1D6#9) = false ∧
    (bounded 5#8 3 [bt 0x2B#8] 0x0D6#9).stalled (decode 0x0D6#9) = false := by decide
theorem witness_PlacedWordRunsNext : decodeTableWord 16 0x1D6 = some (.encLast 0xD6#8) := by decide
theorem witness_StalledCommandWaits :
    (bounded 5#8 2 [bt 0x2B#8] 0x0D6#9).input = .command 0x0D6#9 :: [] ∧
    (bounded 5#8 2 [bt 0x2B#8] 0x0D6#9).col = some 5#8 ∧
    (bounded 5#8 2 [bt 0x2B#8] 0x0D6#9).stalled (decode 0x0D6#9) = true ∧
    (State.reset.presentWord 0x0D6#9).outCapacity = none ∧
    (bounded 5#8 3 [bt 0x2B#8] 0x0D6#9).input = .command 0x0D6#9 :: [] ∧
    (bounded 5#8 3 [bt 0x2B#8] 0x0D6#9).col = some 5#8 ∧
    (bounded 5#8 3 [bt 0x2B#8] 0x0D6#9).stalled (decode 0x0D6#9) = false := by decide
/-- For every statement about a next state of step: nothing presented, idle, a stall, a reset, a command taken; the atomic step, OUT_HIST,
the final output. -/
theorem witness_step_answers_next :
    (after (step State.reset)).isSome = true ∧
    (after (step { atCol 5#8 with input := [.idle] })).isSome = true ∧
    (after (step (bounded 5#8 2 [bt 0x2B#8] 0x0D6#9))).isSome = true ∧
    (after (step { atCol 5#8 with input := [.reset] })).isSome = true ∧
    (after (step ((atCol 5#8).presentWord 0x1D6#9))).isSome = true := by decide
theorem witness_PortHandshakes :
    State.reset.cmdReady ⟨false, true, 0x041#9, true⟩ = true ∧
    (bounded 5#8 2 [bt 0x2B#8] 0#9).cmdReady ⟨false, true, 0x0D6#9, false⟩ = false ∧
    (bounded 5#8 2 [bt 0x2B#8] 0#9).outBeat = some (bt 0x2B#8) ∧
    (after (clockEdge ⟨false, true, 0x0D6#9, false⟩ (bounded 5#8 2 [bt 0x2B#8] 0#9))).isSome = true ∧
    (after (clockEdge ⟨true, true, 0x0D6#9, true⟩ (bounded 5#8 2 [bt 0x2B#8] 0#9))).isSome = true := by decide
theorem witness_EveryStepKeepsTheInvariant :
    ({ bounded 127#8 5 [bt 0x2B#8] 0x1F6#9 with callOpen := true } : State).Inv ∧
    (after (step { bounded 127#8 5 [bt 0x2B#8] 0x1F6#9 with callOpen := true })).isSome = true := by decide
theorem witness_SafeStatesNeverStop : State.reset.safe = true ∧
    ({ State.powerOn with input := [.idle, .reset, .command 0x041#9] } : State).safe = true := by decide
theorem witness_UnboundedOutputTakesEveryArrival :
    (State.reset.presentWord 0x1D6#9).outCapacity = none ∧
    (State.reset.presentWord 0x1D6#9).safe = true := by decide
theorem witness_DrainedBlockTakesTheNextCommand :
    ({ bounded 126#8 4 [bt 1#8, bt 2#8] 0x1D6#9 with outReady := [true, true] } : State).col.isSome = true ∧
    ({ bounded 126#8 4 [bt 1#8, bt 2#8] 0x1D6#9 with outReady := [true, true] } : State).input =
      .command 0x1D6#9 :: [] ∧
    (∀ n, (bounded 126#8 4 [bt 1#8, bt 2#8] 0x1D6#9).outCapacity = some n → 4 ≤ n) ∧
    ∀ k, k < ([bt 1#8, bt 2#8] : List Beat).length → ([true, true] : List Bool)[k]? = some true := by
  refine ⟨by decide, by decide, ?_, by decide⟩
  intro n h
  cases h
  decide
theorem witness_CallComputesEncode : State.reset.col = some 0#8 ∧ ([0x04#8] : List Byte) ≠ [] := by decide
theorem witness_CallsAreIndependent :
    arrivalCol none [.reset, .command 0x041#9, .command 0x142#9] = some 0#8 := by decide
theorem witness_output_lines :
    outputLines (encodeCall .two [0x17#8, 0xDF#8]) = [[0x41#8, 0x09#8]] ∧
    ([0x41#8, 0x09#8] : List Byte).head? = some 0x41#8 := by decide
/-- A call of two lines: a first line that is not the last one, of 129 data bytes (vector K11). -/
theorem witness_lines_before_the_last :
    ((outputLines (encodeCall .two (List.replicate 127 0x01#8 ++ [0xDF#8, 0x01#8]))).map List.length) =
      [129, 1] := by decide +kernel
/-- With ESC_UNITS = 1 too: 128 units, the last of them an escape pair. -/
theorem witness_lines_before_the_last_one_unit :
    ((outputLines (encodeCall .one (List.replicate 127 0x01#8 ++ [0xDF#8, 0x01#8]))).map (unitsOf .one)) =
      [128, 1] := by decide +kernel
theorem witness_ResetLeavesOutUnchanged :
    ({ atCol 77#8 with out := [bt 0x2B#8], input := [.reset] } : State).input = .reset :: [] ∧
    ({ atCol 77#8 with out := [bt 0x2B#8], input := [.reset] } : State).outReady.head? ≠ some true := by decide
theorem witness_StepsKeepColTheBytesSinceTheBreak :
    (midLine.col = some 1#8 ∧ (1#8).toNat = sinceBreak (dataOf midLine.outHist)) ∧
    midLine.input.head? ≠ some .reset ∧ (∀ w, midLine.input.head? ≠ some (.resetWithCommand w)) ∧
    (after (step midLine)).isSome = true := by
  refine ⟨by decide, by decide, ?_, by decide⟩
  intro w h
  cases h
theorem witness_EscUnitsMattersOnlyWithEscapes : escapedCount .two 0#8 [0x41#8, 0xDF#8] = 0 := by decide

end Sys2Proof.Tests
end

section
/-! SUPPORT. What ESC_UNITS can change: a byte that is not escaped counts one unit whatever ESC_UNITS is, so only an
escaped byte can tell its two values apart (spec/00_scope.md R8). -/

namespace Sys2Proof.Machine

/-! ### Bytes that are not escaped -/

section Bare

variable {u : EscUnits} {b : Byte} {last : Bool} {col : Byte} (h : needsEscape (shifted b) col = false)
include h

/-- A bare byte counts one column unit, whatever ESC_UNITS is (spec/40_encode.md R85). -/
theorem columnAfter_bare : columnAfter u (shifted b) col = col.toNat + 1 := by
  simp [columnAfter, h]

theorem nextCol_bare :
    nextCol u b last col = if breaksLine (col.toNat + 1) last then 0#8 else BitVec.ofNat 8 (col.toNat + 1) := by
  rw [nextCol, columnAfter_bare h]

theorem burst_bare :
    burst u b last col =
      ⟨shifted b, false⟩ :: if breaksLine (col.toNat + 1) last then breakBeats last else [] := by
  simp [burst, columnAfter_bare h, valueBeats, h]

end Bare

/-- Two values of ESC_UNITS give a call one output from any column, where no byte of the call is escaped. -/
theorem callBeats_eq_of_escapedCount_eq_zero {u v : EscUnits} {xs : List Byte} {col : Byte}
    (h : escapedCount u col xs = 0) : callBeats v col xs = callBeats u col xs := by
  induction xs generalizing col with
  | nil => rfl
  | cons b rest ih =>
    obtain ⟨hbyte, hrest⟩ := Nat.add_eq_zero_iff.mp h
    have hbare : needsEscape (shifted b) col = false := by simpa using hbyte
    have hcol : nextCol v b rest.isEmpty col = nextCol u b rest.isEmpty col := by
      rw [nextCol_bare hbare, nextCol_bare hbare]
    rw [callBeats, callBeats, burst_bare hbare, burst_bare hbare, hcol, ih hrest]

/-! ### A call cut into a run of ENCs and the rest -/

/-- The bytes before a non-empty rest of a call are encoded by ENC; the rest goes on from the column they leave. -/
theorem callBeats_append {u : EscUnits} {ys : List Byte} (hys : ys ≠ []) (xs : List Byte) (col : Byte) :
    callBeats u col (xs ++ ys) = encBeats u col xs ++ callBeats u (encCol u col xs) ys := by
  induction xs generalizing col with
  | nil => rfl
  | cons b rest ih =>
    have hlast : (rest ++ ys).isEmpty = false := by simp [hys]
    rw [List.cons_append, callBeats, hlast, ih, encBeats, encCol, List.append_assoc]

/-- A run of one never escaped byte that ends before LINE_LENGTH emits the shifted byte each time and moves COL by
the run's length, whatever ESC_UNITS is. -/
theorem enc_replicate_bare {u : EscUnits} {b : Byte} (hb : ∀ c, needsEscape (shifted b) c = false) {n : Nat}
    {col : Byte} (hn : col.toNat + n < lineLength) :
    encBeats u col (List.replicate n b) = List.replicate n ⟨shifted b, false⟩ ∧
      encCol u col (List.replicate n b) = BitVec.ofNat 8 (col.toNat + n) := by
  rw [lineLength] at hn
  induction n generalizing col with
  | zero => exact ⟨rfl, by simp [encCol]⟩
  | succ n ih =>
    have hfits : breaksLine (col.toNat + 1) false = false :=
      Bool.eq_false_iff.mpr fun hbreak => (breaksLine_iff.mp hbreak).elim (by omega) Bool.false_ne_true
    have hburst : burst u b false col = [⟨shifted b, false⟩] := by simp [burst_bare (hb col), hfits]
    have hcol : (nextCol u b false col).toNat = col.toNat + 1 := by
      rw [nextCol_bare (hb col), hfits, if_neg Bool.false_ne_true, BitVec.toNat_ofNat]
      omega
    obtain ⟨hbeats, hend⟩ := ih (col := nextCol u b false col) (by omega)
    rw [List.replicate_succ, encBeats, encCol, hburst, hbeats, hend, hcol]
    exact ⟨rfl, by congr 1; omega⟩

@[simp] theorem dataOf_append (bs cs : List Beat) : dataOf (bs ++ cs) = dataOf bs ++ dataOf cs := List.map_append

@[simp] theorem dataOf_replicate (n : Nat) (bt : Beat) : dataOf (List.replicate n bt) = List.replicate n bt.data :=
  List.map_replicate

/-- The byte 0x01, whose shifted value is 0x2B, is escaped at no column. -/
theorem needsEscape_shifted_one (c : Byte) : needsEscape (shifted 0x01#8) c = false :=
  Bool.eq_false_iff.mpr fun h => absurd (needsEscape_mem h) (by decide)

/-- A call that begins with 126 bytes 0x01 goes on at COL 126, for either ESC_UNITS. -/
theorem encodeCall_replicate_one_append (u : EscUnits) {ys : List Byte} (hys : ys ≠ []) :
    encodeCall u (List.replicate 126 0x01#8 ++ ys) =
      List.replicate 126 0x2B#8 ++ dataOf (callBeats u 126#8 ys) := by
  obtain ⟨hbeats, hcol⟩ :=
    enc_replicate_bare (u := u) needsEscape_shifted_one (n := 126) (col := 0#8) (by decide)
  rw [encodeCall, callBeats_append hys, hbeats, hcol, dataOf_append, dataOf_replicate]
  rfl

/-- Settles O50: bare bytes never read ESC_UNITS; in the input of K9 and K10 the escape stands at COL 126, where two
units reach LINE_LENGTH and one unit does not. -/
theorem escUnitsMattersOnlyWithEscapes : Obligations.EscUnitsMattersOnlyWithEscapes := by
  have htwo : dataOf (callBeats .two 126#8 [0xD6#8, 0x01#8]) =
      [0x3D#8, 0x40#8, 0x0D#8, 0x0A#8, 0x2B#8, 0x0D#8, 0x0A#8] := by decide
  have hone : dataOf (callBeats .one 126#8 [0xD6#8, 0x01#8]) =
      [0x3D#8, 0x40#8, 0x2B#8, 0x0D#8, 0x0A#8] := by decide
  refine ⟨fun xs h => callBeats_eq_of_escapedCount_eq_zero h, ?_, ?_⟩
  · rw [encodeCall_replicate_one_append .two (List.cons_ne_nil _ _), htwo]
  · rw [encodeCall_replicate_one_append .one (List.cons_ne_nil _ _), hone]

end Sys2Proof.Machine
end

section
/-! SUPPORT. What a command and a step can do to each field of the state, each said once; then the frame of a command,
the bounds of COL, the history OUT_HIST, and the invariant that every step keeps (spec/10_state.md). -/

namespace Sys2Proof.Machine

/-! ### The column inside one step (spec/10_state.md R22, R23) -/

theorem one_le_count (u : EscUnits) : 1 ≤ u.count := by cases u <;> decide

/-- One byte moves the column by at most ESC_UNITS. -/
theorem columnAfter_le (u : EscUnits) (s col : Byte) : columnAfter u s col ≤ col.toNat + u.count := by
  have := one_le_count u
  unfold columnAfter
  split <;> omega

/-- In this hardware only an escape at COL 127 takes the column of a step to 129. -/
theorem columnAfter_escUnits_eq_max_iff {s col : Byte} (hcol : col.toNat < 128) :
    columnAfter escUnits s col = 129 ↔ col = 127#8 ∧ needsEscape s col = true := by
  have hedge : col = 127#8 ↔ col.toNat = 127 := BitVec.toNat_inj.symm
  have htwo : escUnits.count = 2 := rfl
  cases hesc : needsEscape s col with
  | true => simp [columnAfter, hesc, htwo, hedge]
  | false =>
    have hunits : columnAfter escUnits s col = col.toNat + 1 := by simp [columnAfter, hesc]
    exact iff_of_false (by omega) (by simp)

/-- Settles O10: a byte counts at most ESC_UNITS units, and two of them only when it is escaped. -/
theorem columnInsideAStepIsBounded : Obligations.ColumnInsideAStepIsBounded := by
  intro s col hcol
  have hle (u : EscUnits) : columnAfter u s col ≤ 127 + u.count :=
    (columnAfter_le u s col).trans (by omega)
  exact ⟨hle, hle escUnits, columnAfter_escUnits_eq_max_iff hcol⟩

/-! ### One command -/

/-- Everything a command can do when it answers a next state: COL held a value, and this is the state. -/
theorem exec_next {i : Instr} {s t : State} (h : exec i s = .next t) :
    ∃ c, s.col = some c ∧ t = s.afterBeats (nextCol escUnits i.operand i.isLast c) (!i.isLast)
      (burst escUnits i.operand i.isLast c) := by
  rw [exec_eq] at h
  exact encodeStep_next h

/-- Settles O15: COL after a command is what `nextCol` gives, which is below LINE_LENGTH from every column. -/
theorem commandsLeaveColBelowLineLength : Obligations.CommandsLeaveColBelowLineLength := by
  refine ⟨fun i s t h => ?_, fun s => s.assertReset_col⟩
  obtain ⟨c, -, rfl⟩ := exec_next h
  exact ⟨_, State.afterBeats_col .., nextCol_lt ..⟩

/-- The final byte of a call emits the line break as well, so at least three beats (spec/30_encoding.md R66). -/
theorem three_le_burst_last_length (u : EscUnits) (b col : Byte) : 3 ≤ (burst u b true col).length := by
  have hbreak : breaksLine (columnAfter u (shifted b) col) true = true := breaksLine_iff.mpr (.inr rfl)
  rw [burst, if_pos hbreak, List.length_append, valueBeats_length]
  split <;> decide

/-- Settles O18: a command's next state is its first one with beats appended, and COL and the call written. -/
theorem commandFrame : Obligations.CommandFrame := by
  intro i s t h
  obtain ⟨c, -, rfl⟩ := exec_next h
  obtain ⟨hmin, hmax⟩ := burst_length escUnits i.operand i.isLast c
  refine ⟨⟨_, State.afterBeats_out .., ?_, hmax⟩, rfl, rfl, rfl, rfl, rfl⟩
  cases i with
  | enc b => exact hmin
  | encLast b => exact three_le_burst_last_length escUnits b c

/-- The beats of the byte's own units all have last = 0 (spec/40_encode.md R85). -/
theorem last_eq_false_of_mem_valueBeats {s col : Byte} {x : Beat} (hx : x ∈ valueBeats s col) :
    x.last = false := by
  unfold valueBeats at hx
  split at hx
  · obtain rfl | rfl : x = ⟨escapeByte, false⟩ ∨ x = ⟨escapedValue s, false⟩ := by simpa using hx
    · rfl
    · rfl
  · rw [List.mem_singleton.mp hx]

/-- Of the beats a command emits, only an LF can have last = 1 (spec/30_encoding.md R65). -/
theorem data_eq_lf_of_mem_burst {u : EscUnits} {b : Byte} {last : Bool} {col : Byte} {x : Beat}
    (hx : x ∈ burst u b last col) (hlast : x.last = true) : x.data = lf := by
  rw [burst, List.mem_append] at hx
  obtain hvalue | hbreak := hx
  · rw [last_eq_false_of_mem_valueBeats hvalue] at hlast
    cases hlast
  · split at hbreak
    · obtain rfl | rfl : x = ⟨cr, false⟩ ∨ x = ⟨lf, last⟩ := by simpa [breakBeats] using hbreak
      · cases hlast
      · rfl
    · cases hbreak

/-! ### One step -/

/-- All that a step from `s` to `t` can do to the arrivals, COL, the call in progress and OUT: one constructor for each
way of serving the next arrival. `StepEffect.of_step` ties it to the step. -/
inductive StepEffect (s t : State) : Prop where
  /-- Nothing is presented, nothing but an idle arrival is, or a command is that stalls and stays presented. -/
  | hold (hinput : s.input = .idle :: t.input ∨ (t.input = s.input ∧ (s.input = [] ∨
        ∃ w rest, s.input = .command w :: rest ∧ s.stalled (decode w) = true)))
      (hcol : t.col = s.col) (hopen : t.callOpen = s.callOpen) (hout : t.out = s.serveOutput.out)
      (hhist : t.outHist = s.outHist)
  /-- Reset, alone or beside a command that is not taken. -/
  | reset (a : Arrival) (ha : a = .reset ∨ ∃ w, a = .resetWithCommand w) (hinput : s.input = a :: t.input)
      (hcol : t.col = some 0#8) (hopen : t.callOpen = false) (hout : t.out = s.serveOutput.out)
      (hhist : t.outHist = s.outHist)
  /-- A command is taken and runs whole. -/
  | take (w : CmdWord) (c : Byte) (hinput : s.input = .command w :: t.input)
      (hroom : s.stalled (decode w) = false) (hc : s.col = some c)
      (hcol : t.col = some (nextCol escUnits (decode w).operand (decode w).isLast c))
      (hopen : t.callOpen = !(decode w).isLast)
      (hout : t.out = s.serveOutput.out ++ burst escUnits (decode w).operand (decode w).isLast c)
      (hhist : t.outHist = s.outHist ++ burst escUnits (decode w).operand (decode w).isLast c)

variable {s t : State}

/-- A step that answers a next state has one of the three effects. -/
theorem StepEffect.of_step (h : step s = .next t) : StepEffect s t := by
  obtain hhold | ⟨i, t₀, c, hrun, hc, rfl⟩ := step_next h
  · obtain ⟨hin, rfl⟩ | ⟨w, rest, hin, hstall, rfl⟩ | ⟨rest, hin, rfl⟩ | ⟨a, rest, hin, ha, rfl⟩ :=
      State.fetch_hold hhold
    · exact .hold (.inr ⟨s.serveOutput_input, .inl hin⟩) s.serveOutput_col s.serveOutput_callOpen rfl
        s.serveOutput_outHist
    · exact .hold (.inr ⟨s.serveOutput_input, .inr ⟨w, rest, hin, hstall⟩⟩) s.serveOutput_col
        s.serveOutput_callOpen rfl s.serveOutput_outHist
    · exact .hold (.inl hin) s.serveOutput_col s.serveOutput_callOpen rfl s.serveOutput_outHist
    · exact .reset a ha hin rfl rfl rfl s.serveOutput_outHist
  · obtain ⟨w, rest, hin, hroom, rfl, rfl⟩ := State.fetch_run hrun
    refine .take w c hin hroom hc rfl rfl rfl ?_
    rw [← s.serveOutput_outHist]
    exact State.afterBeats_outHist { s.serveOutput with input := rest } _ (!(decode w).isLast) _

/-- What every step does to the fields that only the host's part of a step touches. -/
theorem step_frame (h : step s = .next t) :
    t.delivered = s.serveOutput.delivered ∧ t.outCapacity = s.outCapacity ∧ t.outReady = s.outReady.tail := by
  have hserve : s.serveOutput.outCapacity = s.outCapacity ∧ s.serveOutput.outReady = s.outReady.tail :=
    ⟨s.serveOutput_outCapacity, s.serveOutput_outReady⟩
  obtain hhold | ⟨i, t₀, c, hrun, -, rfl⟩ := step_next h
  · obtain ⟨-, rfl⟩ | ⟨-, -, -, -, rfl⟩ | ⟨-, -, rfl⟩ | ⟨-, -, -, -, rfl⟩ := State.fetch_hold hhold <;>
      exact ⟨rfl, hserve⟩
  · obtain ⟨w, rest, -, -, rfl, rfl⟩ := State.fetch_run hrun
    exact ⟨rfl, hserve⟩

/-! ### OUT_HIST (spec/10_state.md R30) -/

/-- A step only appends to OUT_HIST. -/
theorem step_outHist_prefix (h : step s = .next t) : s.outHist <+: t.outHist := by
  cases StepEffect.of_step h with
  | hold _ _ _ _ hhist => rw [hhist]
  | reset _ _ _ _ _ _ hhist => rw [hhist]
  | take _ _ _ _ _ _ _ _ hhist => rw [hhist]; exact List.prefix_append ..

theorem State.delivered_prefix_serveOutput (s : State) : s.delivered <+: s.serveOutput.delivered := by
  rw [s.serveOutput_delivered]
  split
  · exact List.prefix_append ..
  · exact List.prefix_rfl

/-- Settles O33: a step appends to OUT_HIST, and the host takes beats from the head of what is left of it. -/
theorem outHistOnlyGrows : Obligations.OutHistOnlyGrows := by
  intro s t h
  obtain ⟨hdelivered, -, -⟩ := step_frame h
  refine ⟨step_outHist_prefix h, ?_, List.prefix_append ..⟩
  rw [hdelivered]
  exact s.delivered_prefix_serveOutput

/-- The beats of the arrivals still to come, where the next one is a reset. -/
theorem arrivalBeats_reset {a : Arrival} (ha : a = .reset ∨ ∃ w, a = .resetWithCommand w) (col : Option Byte)
    (rest : List Arrival) : arrivalBeats col (a :: rest) = arrivalBeats (some 0#8) rest := by
  obtain rfl | ⟨w, rfl⟩ := ha <;> cases col <;> rfl

theorem arrivalBeats_idle (col : Option Byte) (rest : List Arrival) :
    arrivalBeats col (.idle :: rest) = arrivalBeats col rest := by
  cases col <;> rfl

/-- Settles O38: a step moves the beats of the arrival that it takes from the arrivals still to come to OUT_HIST. -/
theorem everyStepKeepsTheFinalOutput : Obligations.EveryStepKeepsTheFinalOutput := by
  intro s t h
  unfold State.finalHist
  cases StepEffect.of_step h with
  | hold hinput hcol _ _ hhist =>
    obtain hidle | ⟨hsame, -⟩ := hinput
    · rw [hhist, hcol, hidle, arrivalBeats_idle]
    · rw [hhist, hcol, hsame]
  | reset a ha hinput hcol _ _ hhist => rw [hhist, hcol, hinput, arrivalBeats_reset ha]
  | take w c hinput _ hc hcol _ _ hhist =>
    rw [hhist, hcol, hinput, hc, arrivalBeats, List.append_assoc]

/-! ### The invariant, conjunct by conjunct -/

theorem State.colInRange_iff : s.colInRange = true ↔ ∀ c, s.col = some c → c.toNat < 128 := by
  cases hc : s.col with
  | none => simp [State.colInRange, hc]
  | some c =>
    have hlt : decide (c.toNat < lineLength) = true ↔ c.toNat < 128 := decide_eq_true_iff
    simp [State.colInRange, hc, hlt]

theorem State.boundaryColZero_iff : s.boundaryColZero = true ↔
    (s.col = none → s.callOpen = false) ∧ ∀ c, s.col = some c → s.callOpen = false → c = 0#8 := by
  cases hc : s.col with
  | none => simp [State.boundaryColZero, hc]
  | some c => cases hopen : s.callOpen <;> simp [State.boundaryColZero, hc, hopen]

theorem State.outFits_iff : s.outFits = true ↔ ∀ n, s.outCapacity = some n → s.out.length ≤ n := by
  cases hn : s.outCapacity with
  | none => simp [State.outFits, hn]
  | some n => simp [State.outFits, hn]

theorem State.lastOnlyOnLf_iff : s.lastOnlyOnLf = true ↔ ∀ x ∈ s.outHist, x.last = true → x.data = lf := by
  simp [State.lastOnlyOnLf, imp_iff_not_or]

/-- COL stays below LINE_LENGTH (spec/10_state.md R22). -/
theorem step_colInRange (h : step s = .next t) (hs : s.colInRange = true) : t.colInRange = true := by
  rw [State.colInRange_iff] at *
  cases StepEffect.of_step h with
  | hold _ hcol => rwa [hcol]
  | reset _ _ _ hcol => simp [hcol]
  | take w c _ _ _ hcol => simp [hcol, nextCol_lt]

/-- COL stays 0 at call boundaries: ENC_LAST and reset, which make one, set it to 0, and ENC opens the call
(spec/70_reset_and_hazards.md R144). -/
theorem step_boundaryColZero (h : step s = .next t) (hs : s.boundaryColZero = true) :
    t.boundaryColZero = true := by
  rw [State.boundaryColZero_iff] at *
  cases StepEffect.of_step h with
  | hold _ hcol hopen => rwa [hcol, hopen]
  | reset _ _ _ hcol => simp [hcol]
  | take w c _ _ _ hcol hopen =>
    refine ⟨by simp [hcol], fun d hd hclosed => ?_⟩
    have hlast : (decode w).isLast = true := by simpa [hopen] using hclosed
    rw [hcol, hlast, nextCol_last] at hd
    exact (Option.some.inj hd).symm

/-- A command that does not stall finds room for all its beats (spec/20_memory.md R52). -/
theorem State.length_add_burst_le_of_not_stalled {i : Instr} {n : Nat} {c : Byte} (hroom : s.stalled i = false)
    (hn : s.outCapacity = some n) (hc : s.col = some c) :
    s.out.length + (burst escUnits i.operand i.isLast c).length ≤ n := by
  by_contra hfull
  have hstall : s.stalled i = true := State.stalled_iff.mpr ⟨n, c, hn, hc, by omega⟩
  simp [hroom] at hstall

/-- OUT stays within its capacity (spec/20_memory.md R52). -/
theorem step_outFits (h : step s = .next t) (hs : s.outFits = true) : t.outFits = true := by
  rw [State.outFits_iff] at *
  obtain ⟨-, hcap, -⟩ := step_frame h
  have hserve := s.serveOutput_out_length_le
  intro n hn
  rw [hcap] at hn
  cases StepEffect.of_step h with
  | hold _ _ _ hout => rw [hout]; exact hserve.trans (hs n hn)
  | reset _ _ _ _ _ hout => rw [hout]; exact hserve.trans (hs n hn)
  | take w c _ hroom hc _ _ hout =>
    have hfit := State.length_add_burst_le_of_not_stalled hroom hn hc
    rw [hout, List.length_append]
    omega

/-- last = 1 stays on LF beats only (spec/30_encoding.md R65). -/
theorem step_lastOnlyOnLf (h : step s = .next t) (hs : s.lastOnlyOnLf = true) : t.lastOnlyOnLf = true := by
  rw [State.lastOnlyOnLf_iff] at *
  cases StepEffect.of_step h with
  | hold _ _ _ _ hhist => rwa [hhist]
  | reset _ _ _ _ _ _ hhist => rwa [hhist]
  | take w c _ _ _ _ _ _ hhist =>
    rw [hhist]
    exact List.forall_mem_append.mpr ⟨hs, fun x hx => data_eq_lf_of_mem_burst hx⟩

/-- Settles O36: each conjunct of the invariant is kept by the three effects a step can have. -/
theorem everyStepKeepsTheInvariant : Obligations.EveryStepKeepsTheInvariant := by
  rintro s t ⟨hcol, hboundary, hfits, hlast⟩ h
  exact ⟨step_colInRange h hcol, step_boundaryColZero h hboundary, step_outFits h hfits,
    step_lastOnlyOnLf h hlast⟩

end Sys2Proof.Machine
end

section
/-! SUPPORT. One command against the spec's pseudocode on integers; what a step does for each arrival; then the memory
family: the stall, the atomic step, the port binding, and calls among other arrivals (spec/20_memory.md). -/

namespace Sys2Proof.Machine

/-! ### One command and the pseudocode of EncodeStep (spec/40_encode.md section 2) -/

theorem shifted_toNat (b : Byte) : (shifted b).toNat = (b.toNat + 42) % 256 := BitVec.toNat_add ..

theorem escapedValue_toNat (s : Byte) : (escapedValue s).toNat = (s.toNat + 64) % 256 := BitVec.toNat_add ..

theorem mem_alwaysEsc_iff {s : Byte} :
    s ∈ alwaysEsc ↔ s.toNat = 0 ∨ s.toNat = 10 ∨ s.toNat = 13 ∨ s.toNat = 61 := by
  simp [alwaysEsc, ← BitVec.toNat_inj]

theorem mem_wsEsc_iff {s : Byte} : s ∈ wsEsc ↔ s.toNat = 9 ∨ s.toNat = 32 := by
  simp [wsEsc, ← BitVec.toNat_inj]

theorem mem_dotEsc_iff {s : Byte} : s ∈ dotEsc ↔ s.toNat = 46 := by
  simp [dotEsc, ← BitVec.toNat_inj]

/-- The escape decision on bytes is that of the pseudocode on integers (spec/40_encode.md R81). -/
theorem needsEscape_eq_refNeedsEscape (s col : Byte) :
    needsEscape s col = refNeedsEscape s.toNat col.toNat := by
  have hedge : lineLength - 1 = 127 := rfl
  rw [Bool.eq_iff_iff]
  simp only [needsEscape, refNeedsEscape, List.contains_iff_mem, mem_alwaysEsc_iff, mem_wsEsc_iff,
    mem_dotEsc_iff, Bool.ite_eq_true_distrib, Bool.or_eq_true, decide_eq_true_eq]
  split_ifs with halways
  · exact iff_of_true trivial (.inl (.inl halways))
  · omega
  · omega
  · exact iff_of_false not_false (by omega)

/-- One command does what the pseudocode of EncodeStep computes: the same beats and the same new COL. -/
theorem refStep_toNat (b col : Byte) (last : Bool) :
    refStep b.toNat col.toNat last =
      ((burst escUnits b last col).map beatPair, (nextCol escUnits b last col).toNat) := by
  have hescape : refNeedsEscape ((b.toNat + 42) % 256) col.toNat = needsEscape (shifted b) col := by
    rw [needsEscape_eq_refNeedsEscape, shifted_toNat]
  have hcolumn : (if needsEscape (shifted b) col then col.toNat + 2 else col.toNat + 1) =
      columnAfter escUnits (shifted b) col := by
    unfold columnAfter; split <;> rfl
  have hunits : (valueBeats (shifted b) col).map beatPair =
      if needsEscape (shifted b) col then [(61, false), (((b.toNat + 42) % 256 + 64) % 256, false)]
      else [((b.toNat + 42) % 256, false)] := by
    rw [← shifted_toNat, ← escapedValue_toNat]
    unfold valueBeats; split <;> rfl
  have hbreak (c : Nat) : (decide (128 ≤ c) || last) = breaksLine c last := rfl
  simp only [refStep, hescape, hcolumn, ← hunits, hbreak, burst, nextCol]
  split
  case isTrue => simp [breakBeats, beatPair, cr, lf]
  case isFalse hfits =>
    have hlt : ¬ 128 ≤ columnAfter escUnits (shifted b) col := fun hle => hfits (breaksLine_iff.mpr (.inl hle))
    rw [List.append_nil, BitVec.toNat_ofNat, Nat.mod_eq_of_lt (by omega)]

/-! ### A step, arrival by arrival -/

section Step

variable {s t : State}

/-- A command that does not stall leaves the input stream and runs whole. -/
theorem step_command {w : CmdWord} {rest : List Arrival} (hin : s.input = .command w :: rest)
    (hroom : s.stalled (decode w) = false) :
    step s = exec (decode w) { s.serveOutput with input := rest } := by
  simp [step, State.fetch, hin, hroom]

/-- A command that stalls stays presented: the step is the host's part alone (log entry 15). -/
theorem step_stalled {w : CmdWord} {rest : List Arrival} (hin : s.input = .command w :: rest)
    (hstall : s.stalled (decode w) = true) : step s = .next s.serveOutput := by
  simp [step, State.fetch, hin, hstall]

/-- With unbounded OUT no command stalls (spec/20_memory.md R52). -/
theorem State.not_stalled_of_unbounded (hcap : s.outCapacity = none) (i : Instr) : s.stalled i = false := by
  simp [State.stalled, hcap]

/-- No step is refused: both commands have their meaning. -/
theorem step_ne_refused (s : State) (r : Refusal) : step s ≠ .refused r := by
  intro h
  unfold step at h
  split at h
  · cases h
  next i t _ =>
    rw [exec_eq] at h
    cases hc : t.col with
    | none => rw [encodeStep_none hc] at h; cases h
    | some c => rw [encodeStep_some hc] at h; cases h

/-- A step leaves in OUT what the host did not take, and only appends to it. -/
theorem step_out_prefix (h : step s = .next t) : s.serveOutput.out <+: t.out := by
  cases StepEffect.of_step h with
  | hold _ _ _ hout => rw [hout]
  | reset _ _ _ _ _ hout => rw [hout]
  | take _ _ _ _ _ _ _ hout => rw [hout]; exact List.prefix_append ..

end Step

/-- Settles O27: the host's part of a step moves OUT's head exactly when the host is ready. -/
theorem takingABeatMovesItOnce : Obligations.TakingABeatMovesItOnce := by
  intro s
  rw [s.serveOutput_out, s.serveOutput_delivered]
  refine ⟨fun x bs hout hready => ?_, ?_, s.serveOutput_outHist⟩
  · simp [hout, hready]
  · rintro (hout | hready)
    · simp [hout]
    · simp [hready]

/-- Settles O28. -/
theorem stepRunsTheDecodedCommand : Obligations.StepRunsTheDecodedCommand :=
  fun _ _ _ hin hroom => step_command hin hroom

/-- The table decoder reads exactly the 9-bit words, as the command decoder does. -/
theorem decodeTableWord_eq_some_iff {nbits w : Nat} {i : Instr} :
    decodeTableWord nbits w = some i ↔
      wfCmdWord (tableBits nbits w) = true ∧ decode (BitVec.ofNat 9 (tableBits nbits w)) = i := by
  cases hwf : wfCmdWord (tableBits nbits w) <;> simp [decodeTableWord, decodeNat, hwf]

/-- Settles O29: right after reset OUT is unbounded, so the placed word is taken, and nothing else is presented. -/
theorem placedWordRunsNext : Obligations.PlacedWordRunsNext := by
  intro w i h
  obtain ⟨hwf, rfl⟩ := decodeTableWord_eq_some_iff.mp h
  rw [State.withFetchWord, if_pos hwf,
    step_command (State.presentWord_input ..) (State.not_stalled_of_unbounded rfl _)]
  rfl

/-! ### The stall and the atomic step (spec/20_memory.md R46, R52) -/

/-- Settles O30: room is reckoned with the beats the command emits, which are those of the pseudocode. -/
theorem stalledCommandWaits : Obligations.StalledCommandWaits := by
  intro s w rest c hin hc
  rw [refStep_toNat]
  refine ⟨?_, fun hcap => State.not_stalled_of_unbounded hcap _, fun hstall => ?_, fun hroom => ?_⟩
  · simp [State.stalled_iff, hc]
  · exact ⟨_, step_stalled hin hstall, s.serveOutput_input, s.serveOutput_col, s.serveOutput_callOpen,
      s.serveOutput_outHist, s.serveOutput_outCapacity⟩
  · have hcol : ({ s.serveOutput with input := rest } : State).col = some c := s.serveOutput_col.trans hc
    refine ⟨_, _, (step_command hin hroom).trans (exec_some hcol), rfl, ?_, rfl, step_command hin hroom⟩
    rw [State.afterBeats_outHist, ← s.serveOutput_outHist]
    rfl

/-- Settles O31: the three effects of a step are the three disjuncts. -/
theorem stepsAreAtomic : Obligations.StepsAreAtomic := by
  intro s t h
  cases StepEffect.of_step h with
  | hold hinput hcol hopen _ hhist => exact .inl ⟨hhist, hcol, hopen, hinput⟩
  | reset a ha hinput hcol hopen _ hhist => exact .inr (.inl ⟨hhist, hcol, hopen, a, hinput, ha⟩)
  | take w c hinput _ hc hcol hopen _ hhist =>
    obtain ⟨hmin, hmax⟩ := burst_length escUnits (decode w).operand (decode w).isLast c
    refine .inr (.inr ⟨w, c, _, hinput, hc, hhist, hmin, hmax, ?_, ?_, hopen⟩)
    · rw [refStep_toNat]
    · rw [refStep_toNat, hcol, BitVec.ofNat_toNat, BitVec.setWidth_eq]

/-! ### The port binding (spec/20_memory.md R56) -/

section Ports

variable {p : PortIn} {s : State}

/-- The pins present a command exactly when rst is 0 and cmd_valid is 1. -/
theorem PortIn.arrival_eq_command_iff {w : CmdWord} :
    p.arrival = .command w ↔ p.rst = false ∧ p.cmdValid = true ∧ p.cmdData = w := by
  cases hrst : p.rst <;> cases hvalid : p.cmdValid <;> simp [PortIn.arrival, hrst, hvalid]

theorem State.cmdReady_iff : s.cmdReady p = true ↔ p.rst = false ∧ s.stalled (decode p.cmdData) = false := by
  simp [State.cmdReady]

/-- Driving the pins changes neither OUT nor COL, so it does not change what stalls. -/
theorem State.drive_stalled (i : Instr) : (s.drive p).stalled i = s.stalled i := rfl

/-- A clock edge on which the handshake of the command port fails takes no command, so it emits no beat. -/
theorem clockEdge_outHist {t : State} (h : clockEdge p s = .next t)
    (hno : p.rst = true ∨ p.cmdValid = false ∨ s.cmdReady p = false) : t.outHist = s.outHist := by
  cases StepEffect.of_step h with
  | hold _ _ _ _ hhist => exact hhist
  | reset _ _ _ _ _ _ hhist => exact hhist
  | take w c hinput hroom _ _ _ _ _ =>
    have harrival : p.arrival = .command w := (List.cons.inj hinput).1
    obtain ⟨hrst, hvalid, rfl⟩ := PortIn.arrival_eq_command_iff.mp harrival
    have hready : s.cmdReady p = true := State.cmdReady_iff.mpr ⟨hrst, hroom⟩
    simp [hrst, hvalid, hready] at hno

theorem State.drive_serveOutput_out :
    (s.drive p).serveOutput.out = if p.outReady = true then s.out.tail else s.out := by
  simp [State.serveOutput_out, State.drive]

theorem State.drive_serveOutput_delivered : (s.drive p).serveOutput.delivered =
    if p.outReady = true then s.delivered ++ s.outBeat.toList else s.delivered := by
  simp [State.serveOutput_delivered, State.drive, State.outBeat]

end Ports

/-- Settles O34: an edge is a step on what the pins present, so the rules of the step give each handshake. -/
theorem portHandshakes : Obligations.PortHandshakes := by
  intro p s
  refine ⟨fun hrst hvalid hready => ?_, fun t h => ⟨clockEdge_outHist h, ?_, ?_, ?_⟩⟩
  · have harrival := PortIn.arrival_eq_command_iff.mpr ⟨hrst, hvalid, rfl⟩
    obtain ⟨-, hroom⟩ := State.cmdReady_iff.mp hready
    exact step_command (congrArg (· :: []) harrival) hroom
  · intro hready
    rw [(step_frame h).1, State.drive_serveOutput_delivered, if_pos hready]
  · intro hready
    rw [(step_frame h).1, State.drive_serveOutput_delivered, if_neg (by simp [hready])]
  · intro x hx hready
    have hprefix := step_out_prefix h
    rw [State.drive_serveOutput_out, if_neg (by simp [hready])] at hprefix
    obtain ⟨bs, hout⟩ := hprefix
    rw [State.outBeat] at hx ⊢
    rw [← hout, List.head?_append, hx, Option.some_or]

/-! ### Runs with unbounded OUT (spec/20_memory.md R52; spec/70_reset_and_hazards.md R147) -/

section Run

variable {s t : State}

/-- A state that keeps the host's first duty has COL set, or presents no command before a reset. -/
theorem State.safe_iff : s.safe = true ↔ s.col.isSome = true ∨ resetsFirst s.input = true := by
  rw [State.safe, Bool.or_eq_true]

/-- While the host keeps its first duty a step stops nowhere. -/
theorem step_of_safe (hsafe : s.safe = true) : ∃ t, step s = .next t := by
  cases h : step s with
  | next t => exact ⟨t, rfl⟩
  | fault f =>
    obtain ⟨-, hcol, w, rest, hin⟩ := step_fault h
    simp [State.safe_iff, hcol, hin, resetsFirst] at hsafe
  | refused r => exact absurd h (step_ne_refused s r)

/-- A step keeps the host's first duty: it serves an idle arrival or none, or leaves a value in COL. -/
theorem step_keeps_safe (h : step s = .next t) (hsafe : s.safe = true) : t.safe = true := by
  rw [State.safe_iff] at *
  cases StepEffect.of_step h with
  | hold hinput hcol =>
    rw [hcol]
    obtain hidle | ⟨hsame, -⟩ := hinput
    · rwa [hidle, resetsFirst] at hsafe
    · rwa [hsame]
  | reset _ _ _ hcol => simp [hcol]
  | take _ _ _ _ _ hcol => simp [hcol]

/-- With unbounded OUT no command stalls, so every step serves its arrival. -/
theorem step_input_of_unbounded (h : step s = .next t) (hcap : s.outCapacity = none) {a : Arrival}
    {rest : List Arrival} (hin : s.input = a :: rest) : t.input = rest := by
  have hserved {a' : Arrival} (hinput : s.input = a' :: t.input) : t.input = rest :=
    (List.cons.inj (hinput.symm.trans hin)).2
  cases StepEffect.of_step h with
  | hold hinput =>
    obtain hidle | ⟨-, hnone | ⟨w, _, -, hstall⟩⟩ := hinput
    · exact hserved hidle
    · simp [hin] at hnone
    · simp [State.not_stalled_of_unbounded hcap] at hstall
  | reset _ _ hinput => exact hserved hinput
  | take _ _ hinput => exact hserved hinput

theorem arrivalBeats_nil (col : Option Byte) : arrivalBeats col [] = [] := by cases col <;> rfl

theorem State.finalHist_of_input_nil (hin : s.input = []) : s.finalHist = s.outHist := by
  rw [State.finalHist, hin, arrivalBeats_nil, List.append_nil]

/-- As many steps as there are arrivals serve them all, and OUT_HIST is then what it was to be in the end. -/
theorem stepMany_serves_all (arrivals : List Arrival) (hin : s.input = arrivals)
    (hcap : s.outCapacity = none) (hsafe : s.safe = true) :
    ∃ t, stepMany arrivals.length s = .next t ∧ t.input = [] ∧ t.outHist = s.finalHist := by
  induction arrivals generalizing s with
  | nil => exact ⟨s, rfl, hin, (State.finalHist_of_input_nil hin).symm⟩
  | cons a rest ih =>
    obtain ⟨s', hstep⟩ := step_of_safe hsafe
    obtain ⟨-, hcap', -⟩ := step_frame hstep
    obtain ⟨t, hrun, hdone, hhist⟩ := ih (step_input_of_unbounded hstep hcap hin) (hcap'.trans hcap)
      (step_keeps_safe hstep hsafe)
    refine ⟨t, ?_, hdone, hhist.trans (everyStepKeepsTheFinalOutput s s' hstep)⟩
    rw [List.length_cons, stepMany, hstep]
    exact hrun

end Run

/-- Settles O39. -/
theorem unboundedOutputTakesEveryArrival : Obligations.UnboundedOutputTakesEveryArrival :=
  fun s hcap hsafe => stepMany_serves_all s.input rfl hcap hsafe

/-! ### Calls among other arrivals (spec/20_memory.md R49; spec/40_encode.md R97) -/

/-- The decoder reads an encoded instruction back: bit 8 is the row's, and the low byte is the operand. -/
theorem decode_encode (i : Instr) : decode (encode i) = i := by
  have hdata (l : BitVec 1) (b : Byte) : dataField (l ++ b) = b := by
    apply BitVec.eq_of_getElem_eq
    intro k hk
    rw [dataField, BitVec.getElem_extractLsb', Nat.zero_add, BitVec.getLsbD_append, if_pos hk,
      BitVec.getLsbD_eq_getElem hk]
  cases i with
  | enc b =>
    have hlast : lastField (0#1 ++ b) = false := BitVec.getLsbD_append
    simp [encode, decode, hlast, hdata]
  | encLast b =>
    have hlast : lastField (1#1 ++ b) = true := BitVec.getLsbD_append
    simp [encode, decode, hlast, hdata]

theorem arrivalCol_nil (col : Option Byte) : arrivalCol col [] = col := by cases col <;> rfl

theorem arrivalCol_idle (col : Option Byte) (rest : List Arrival) :
    arrivalCol col (.idle :: rest) = arrivalCol col rest := by cases col <;> rfl

theorem arrivalCol_reset {a : Arrival} (ha : a = .reset ∨ ∃ w, a = .resetWithCommand w) (col : Option Byte)
    (rest : List Arrival) : arrivalCol col (a :: rest) = arrivalCol (some 0#8) rest := by
  obtain rfl | ⟨w, rfl⟩ := ha <;> cases col <;> rfl

theorem arrivalCol_command (c : Byte) (w : CmdWord) (rest : List Arrival) :
    arrivalCol (some c) (.command w :: rest) =
      arrivalCol (some (nextCol escUnits (decode w).operand (decode w).isLast c)) rest := rfl

theorem arrivalCol_command_none (w : CmdWord) (rest : List Arrival) :
    arrivalCol none (.command w :: rest) = none := rfl

/-- Arrivals that leave a value in COL were never stuck, so what follows them goes on from that COL. -/
theorem arrivals_append {col : Option Byte} {before : List Arrival} {c : Byte}
    (hcol : arrivalCol col before = some c) (rest : List Arrival) :
    arrivalBeats col (before ++ rest) = arrivalBeats col before ++ arrivalBeats (some c) rest ∧
      arrivalCol col (before ++ rest) = arrivalCol (some c) rest := by
  induction col, before using arrivalBeats.induct with
  | case1 col =>
    rw [arrivalCol_nil] at hcol
    rw [hcol, arrivalBeats_nil]
    exact ⟨rfl, rfl⟩
  | case2 col before ih =>
    rw [arrivalCol_idle] at hcol
    rw [List.cons_append, arrivalBeats_idle, arrivalBeats_idle, arrivalCol_idle]
    exact ih hcol
  | case3 col before ih =>
    rw [arrivalCol_reset (.inl rfl)] at hcol
    rw [List.cons_append, arrivalBeats_reset (.inl rfl), arrivalBeats_reset (.inl rfl), arrivalCol_reset (.inl rfl)]
    exact ih hcol
  | case4 col w before ih =>
    have hreset : Arrival.resetWithCommand w = .reset ∨ ∃ v, Arrival.resetWithCommand w = .resetWithCommand v :=
      .inr ⟨w, rfl⟩
    rw [arrivalCol_reset hreset] at hcol
    rw [List.cons_append, arrivalBeats_reset hreset, arrivalBeats_reset hreset, arrivalCol_reset hreset]
    exact ih hcol
  | case5 w before => cases (arrivalCol_command_none w before).symm.trans hcol
  | case6 d w before ih =>
    obtain ⟨hbeats, hend⟩ := ih hcol
    rw [List.cons_append, arrivalBeats, arrivalBeats, arrivalCol_command, hbeats, hend, List.append_assoc]
    exact ⟨rfl, rfl⟩

/-- The first command of a call, as an arrival: it emits the burst of its byte, the last of the call or not. -/
theorem arrivals_call_cons (c b : Byte) (rest : List Byte) :
    arrivalBeats (some c) (assembleLine (.encode (b :: rest))) = burst escUnits b rest.isEmpty c ++
      arrivalBeats (some (nextCol escUnits b rest.isEmpty c)) (assembleLine (.encode rest)) ∧
    arrivalCol (some c) (assembleLine (.encode (b :: rest))) =
      arrivalCol (some (nextCol escUnits b rest.isEmpty c)) (assembleLine (.encode rest)) := by
  have hline : assembleLine (.encode (b :: rest)) =
      .command (encode (if rest.isEmpty then .encLast b else .enc b)) :: assembleLine (.encode rest) := rfl
  have hoperand : (if rest.isEmpty then Instr.encLast b else .enc b).operand = b := by split <;> rfl
  have hlast : (if rest.isEmpty then Instr.encLast b else .enc b).isLast = rest.isEmpty := by
    cases rest.isEmpty <;> rfl
  rw [hline, arrivalBeats, arrivalCol_command, decode_encode, hoperand, hlast]
  exact ⟨rfl, rfl⟩

/-- The commands of a call emit the call's beats. -/
theorem arrivalBeats_call (c : Byte) (xs : List Byte) :
    arrivalBeats (some c) (assembleLine (.encode xs)) = callBeats escUnits c xs := by
  induction xs generalizing c with
  | nil => rfl
  | cons b rest ih => rw [(arrivals_call_cons c b rest).1, ih, callBeats]

/-- The commands of a call leave COL at 0, as its last byte does. -/
theorem arrivalCol_call {xs : List Byte} (hxs : xs ≠ []) (c : Byte) :
    arrivalCol (some c) (assembleLine (.encode xs)) = some 0#8 := by
  induction xs generalizing c with
  | nil => exact absurd rfl hxs
  | cons b rest ih =>
    rw [(arrivals_call_cons c b rest).2]
    cases rest with
    | nil => rw [List.isEmpty_nil, nextCol_last]; rfl
    | cons b' rest => exact ih (List.cons_ne_nil _ _) _

/-- Settles O42: the arrivals before the call are cut off where they leave COL at 0, and so is the call. -/
theorem callsAreIndependent : Obligations.CallsAreIndependent := by
  intro col before after xs hbefore
  obtain ⟨hbeats, hcol⟩ := arrivals_append hbefore (assembleLine (.encode xs))
  have hcall : arrivalCol (some 0#8) (assembleLine (.encode xs)) = some 0#8 := by
    cases xs with
    | nil => rfl
    | cons b rest => exact arrivalCol_call (List.cons_ne_nil b rest) 0#8
  have hend := hcol.trans hcall
  refine ⟨?_, hend⟩
  rw [(arrivals_append hend after).1, hbeats, arrivalBeats_call]

/-! ### The end of a call (spec/20_memory.md R54; spec/40_encode.md R90) -/

/-- A byte that is not the last of its call emits no beat with last = 1. -/
theorem last_eq_false_of_mem_burst {u : EscUnits} {b col : Byte} {x : Beat} (hx : x ∈ burst u b false col) :
    x.last = false := by
  rw [burst, List.mem_append] at hx
  obtain hvalue | hbreak := hx
  · exact last_eq_false_of_mem_valueBeats hvalue
  · split at hbreak
    · obtain rfl | rfl : x = ⟨cr, false⟩ ∨ x = ⟨lf, false⟩ := by simpa [breakBeats] using hbreak
      · rfl
      · rfl
    · cases hbreak

theorem last_eq_false_of_mem_encBeats {u : EscUnits} {xs : List Byte} {col : Byte} {x : Beat}
    (hx : x ∈ encBeats u col xs) : x.last = false := by
  induction xs generalizing col with
  | nil => cases hx
  | cons b rest ih => exact (List.mem_append.mp hx).elim last_eq_false_of_mem_burst ih

/-- The last byte of a call emits its units, a CR, and the one LF with last = 1. -/
theorem burst_last (u : EscUnits) (b col : Byte) :
    burst u b true col = (valueBeats (shifted b) col ++ [⟨cr, false⟩]) ++ [⟨lf, true⟩] := by
  have hbreak : breaksLine (columnAfter u (shifted b) col) true = true := breaksLine_iff.mpr (.inr rfl)
  rw [burst, if_pos hbreak, List.append_assoc]
  rfl

/-- A call that is not empty ends with the one beat of it that has last = 1. -/
theorem callBeats_eq_concat (u : EscUnits) {xs : List Byte} (hxs : xs ≠ []) (col : Byte) :
    ∃ bs, callBeats u col xs = bs ++ [⟨lf, true⟩] ∧ ∀ x ∈ bs, x.last = false := by
  rw [← List.dropLast_append_getLast hxs, callBeats_append (List.cons_ne_nil _ _), callBeats, List.isEmpty_nil,
    callBeats, List.append_nil, burst_last, ← List.append_assoc]
  refine ⟨_, rfl, ?_⟩
  simp only [List.forall_mem_append, List.forall_mem_singleton, and_true]
  exact ⟨fun x => last_eq_false_of_mem_encBeats, fun x => last_eq_false_of_mem_valueBeats⟩

/-- Beats of which only the final one has last = 1 are complete where the final one has been taken. -/
theorem resultTaken_take_concat_iff {bs : List Beat} {x : Beat} (hx : x.last = true)
    (hbs : ∀ y ∈ bs, y.last = false) (k : Nat) :
    resultTaken ((bs ++ [x]).take k) = true ↔ (bs ++ [x]).length ≤ k := by
  have hlen : (bs ++ [x]).length = bs.length + 1 := List.length_append
  by_cases hk : bs.length + 1 ≤ k
  · rw [List.take_of_length_le (hlen.trans_le hk)]
    simp [resultTaken, hx, hk]
  · have htake : (bs ++ [x]).take k = bs.take k := List.take_append_of_le_length (by omega)
    have hnone : resultTaken (bs.take k) = false :=
      List.any_eq_false.mpr fun y hy => by simp [hbs y (List.mem_of_mem_take hy)]
    simp [htake, hnone, hk]

/-- Settles O43: a call's final beat is the only one with last = 1. -/
theorem callIsCompleteAtItsFinalBeat : Obligations.CallIsCompleteAtItsFinalBeat := by
  intro xs k hxs
  obtain ⟨bs, hcall, hbs⟩ := callBeats_eq_concat escUnits hxs 0#8
  rw [hcall]
  exact resultTaken_take_concat_iff rfl hbs k

end Sys2Proof.Machine
end

section
/-! SUPPORT. The words of the commands as numbers and back; then the encoding family: the decoder, the assembler's
lines, and the shapes of a command's beats (spec/30_encoding.md). -/

namespace Sys2Proof.Machine

/-! ### Command words as numbers (spec/30_encoding.md R60 to R64) -/

/-- The word of an ENC is its operand: the LAST field above it is 0. -/
@[simp] theorem encode_enc_toNat (b : Byte) : (encode (.enc b)).toNat = b.toNat := by
  rw [encode, BitVec.toNat_append, BitVec.toNat_ofNat, Nat.zero_mod, Nat.zero_shiftLeft, Nat.zero_or]

/-- The word of an ENC_LAST is its operand with bit 8 set. -/
@[simp] theorem encode_encLast_toNat (b : Byte) : (encode (.encLast b)).toNat = 256 + b.toNat := by
  rw [encode, BitVec.toNat_append]
  exact (Nat.two_pow_add_eq_or_of_lt (i := 8) b.isLt 1).symm

/-- A number that fits 9 bits is decoded as its command word. -/
theorem decodeNat_of_lt {n : Nat} (h : n < 512) : decodeNat n = .ok (decode (BitVec.ofNat 9 n)) :=
  if_pos (decide_eq_true h)

/-- A number that is the word of an instruction decodes to it. -/
theorem decode_ofNat_of_encode_toNat {i : Instr} {n : Nat} (h : (encode i).toNat = n) :
    decode (BitVec.ofNat 9 n) = i := by
  rw [← h, BitVec.ofNat_toNat, BitVec.setWidth_eq, decode_encode]

/-- The word of an instruction, offered as a number, decodes to the instruction. -/
theorem decodeNat_encode (i : Instr) : decodeNat (encode i).toNat = .ok i := by
  rw [decodeNat_of_lt (encode i).isLt, decode_ofNat_of_encode_toNat rfl]

/-- Two instructions never share a word: the decoder tells them apart. -/
theorem encode_toNat_injective : Function.Injective fun i => (encode i).toNat := fun _ _ h =>
  Function.LeftInverse.injective decode_encode (BitVec.eq_of_toNat_eq h)

/-- Every 9-bit number is the word of an instruction: below 256 of an ENC, from 256 on of an ENC_LAST. -/
theorem exists_encode_toNat_eq {n : Nat} (h : n < 512) : ∃ i, (encode i).toNat = n := by
  by_cases hbyte : n < 256
  · exact ⟨.enc (BitVec.ofNat 8 n), by rw [encode_enc_toNat, BitVec.toNat_ofNat, Nat.mod_eq_of_lt hbyte]⟩
  · exact ⟨.encLast (BitVec.ofNat 8 (n - 256)), by rw [encode_encLast_toNat, BitVec.toNat_ofNat]; omega⟩

/-- Settles O1: a word fits the 9 bits that the number decoders read, and keeps its number in the table's 16. -/
theorem decodeOfEncodeIsTheInstruction : Obligations.DecodeOfEncodeIsTheInstruction := by
  intro i _
  have hword := (encode i).isLt
  have htable : tableBits 16 (encode i).toNat = (encode i).toNat := Nat.mod_eq_of_lt (by omega)
  refine ⟨decode_encode i, decodeNat_encode i, decodeTableWord_eq_some_iff.mpr ?_⟩
  exact ⟨decide_eq_true (htable.trans_lt hword), decode_ofNat_of_encode_toNat htable.symm⟩

/-- Settles O2: the words are exactly the 9-bit numbers, and each belongs to one instruction. -/
theorem everyCommandWordIsLegal : Obligations.EveryCommandWordIsLegal := by
  intro n hn
  obtain ⟨i, rfl⟩ := exists_encode_toNat_eq hn
  refine ⟨i, decodeNat_encode i, ?_, rfl, fun j hj => encode_toNat_injective hj⟩
  cases i with
  | enc b => exact .inl ⟨b, rfl⟩
  | encLast b => exact .inr ⟨b, rfl⟩

/-- Settles O3: both words are those of their instructions, which the decoder reads back. -/
theorem bitEightSelectsTheCommand : Obligations.BitEightSelectsTheCommand := by
  intro n hn
  have hbyte : (BitVec.ofNat 8 n).toNat = n := Nat.mod_eq_of_lt hn
  exact ⟨decode_ofNat_of_encode_toNat (by rw [encode_enc_toNat, hbyte]),
    decode_ofNat_of_encode_toNat (by rw [encode_encLast_toNat, hbyte])⟩

/-- Settles O4: the four words are those of their instructions, bit for bit. -/
theorem sampleWordsDecode : Obligations.SampleWordsDecode :=
  ⟨decode_encode (.enc 0x04#8), decode_encode (.enc 0xF6#8), decode_encode (.encLast 0x04#8),
    decode_encode (.encLast 0xD6#8)⟩

/-- Settles O5: a number that fits 9 bits decodes, and any other is rejected. -/
theorem longerNumbersAreNoCommandWords : Obligations.LongerNumbersAreNoCommandWords := by
  intro n
  by_cases hn : n < 512
  · exact iff_of_false (by simp [decodeNat_of_lt hn]) (by omega)
  · exact iff_of_true (if_neg (by simpa [wfCmdWord] using hn)) (by omega)

/-! ### The assembler's lines (spec/30_encoding.md R68) -/

/-- A call that is not empty is an ENC for every byte but the last, and an ENC_LAST for the last. -/
theorem callInstrs_concat (bs : List Byte) (b : Byte) :
    callInstrs (bs ++ [b]) = bs.map .enc ++ [.encLast b] := by
  induction bs with
  | nil => rfl
  | cons c rest ih =>
    have hlast : (rest ++ [b]).isEmpty = false := by simp
    rw [List.cons_append, callInstrs, hlast, ih]
    rfl

/-- An immediate is a byte exactly when it is in 0..255. -/
theorem byteOfNumber_eq (n : Nat) :
    byteOfNumber n = if n ≤ 255 then .ok (BitVec.ofNat 8 n) else .error .outOfRange := by
  have hrange : wfImm8 n = true ↔ n ≤ 255 := decide_eq_true_iff.trans Nat.lt_succ_iff
  simp only [byteOfNumber, hrange]

/-- Settles O6: every line but a call's is its own arrival, and a call's commands are those of `callInstrs_concat`. -/
theorem assemblerExpandsCalls : Obligations.AssemblerExpandsCalls := by
  refine ⟨fun _ => rfl, fun _ => rfl, rfl, rfl, fun bs b => ?_, byteOfNumber_eq⟩
  rw [assembleLine, callInstrs_concat, List.map_append, List.map_map]
  rfl

/-! ### The shapes of a command's beats (spec/30_encoding.md R65, R66) -/

/-- Settles O14: the byte's units follow the escape decision and the line break follows the column, each as the
pseudocode has it on integers. -/
theorem beatsHaveOneOfFourShapes : Obligations.BeatsHaveOneOfFourShapes := by
  intro i s c hc
  refine ⟨_, exec_some hc, ?_⟩
  have hshift : BitVec.ofNat 8 ((i.operand.toNat + 42) % 256) = shifted i.operand := by
    rw [← shifted_toNat, BitVec.ofNat_toNat, BitVec.setWidth_eq]
  have hvalue : BitVec.ofNat 8 ((i.operand.toNat + 42) % 256 + 64) = escapedValue (shifted i.operand) := by
    rw [BitVec.ofNat_add, hshift]; rfl
  have hescape : refNeedsEscape ((i.operand.toNat + 42) % 256) c.toNat = needsEscape (shifted i.operand) c := by
    rw [needsEscape_eq_refNeedsEscape, shifted_toNat]
  have hbreak : (decide (128 ≤ c.toNat + if needsEscape (shifted i.operand) c then 2 else 1) || i.isLast) =
      breaksLine (columnAfter escUnits (shifted i.operand) c) i.isLast := rfl
  simp only [State.afterBeats_out, hshift, hvalue, hescape, hbreak, burst, valueBeats]
  cases needsEscape (shifted i.operand) c <;>
    cases breaksLine (columnAfter escUnits (shifted i.operand) c) i.isLast <;> rfl

/-- Where only the final one of some beats has last = 1, a beat has it exactly when it stands at the end. -/
theorem last_iff_of_getElem?_concat {bs : List Beat} {x : Beat} (hx : x.last = true)
    (hbs : ∀ y ∈ bs, y.last = false) {k : Nat} {y : Beat} (hy : (bs ++ [x])[k]? = some y) :
    y.last = true ↔ k + 1 = (bs ++ [x]).length := by
  rw [List.length_append, List.length_singleton]
  by_cases hk : k < bs.length
  · rw [List.getElem?_append_left hk] at hy
    have hlast : y.last = false := hbs y (List.mem_of_getElem? hy)
    exact iff_of_false (by simp [hlast]) (by omega)
  · rw [List.getElem?_append_right (by omega)] at hy
    obtain ⟨hend, -⟩ := List.getElem?_eq_some_iff.mp hy
    rw [List.length_singleton] at hend
    rw [List.mem_singleton.mp (List.mem_of_getElem? hy)]
    exact iff_of_true hx (by omega)

/-- Settles O19: an ENC emits no beat with last = 1, and an ENC_LAST one, its final LF. -/
theorem lastFlagMarksTheFinalLf : Obligations.LastFlagMarksTheFinalLf := by
  intro i s t h
  obtain ⟨c, -, rfl⟩ := exec_next h
  refine ⟨_, State.afterBeats_out .., fun k x hx => ⟨?_, data_eq_lf_of_mem_burst (List.mem_of_getElem? hx)⟩⟩
  cases i with
  | enc b =>
    have hlast : x.last = false := last_eq_false_of_mem_burst (List.mem_of_getElem? hx)
    exact iff_of_false (by simp [hlast]) (by simp [Instr.isLast])
  | encLast b =>
    have hbefore : ∀ y ∈ valueBeats (shifted b) c ++ [⟨cr, false⟩], y.last = false :=
      List.forall_mem_append.mpr
        ⟨fun y => last_eq_false_of_mem_valueBeats, List.forall_mem_singleton.mpr rfl⟩
    simp only [Instr.operand, Instr.isLast, burst_last, true_and] at hx ⊢
    exact last_iff_of_getElem?_concat rfl hbefore hx

end Sys2Proof.Machine
end

section
/-! SUPPORT. What one command does to COL and to the data bytes of OUT, byte by byte of a call; then the encode
family: the decisions of a step, both commands, whole calls, and the derived laws of an output: its decoding, its
alphabet, its lines and its length (spec/40_encode.md). -/

namespace Sys2Proof.Machine

/-! ### The bytes of one command (spec/40_encode.md R80 to R86) -/

/-- The rule table of R81 as a proposition about the shifted value and COL. -/
theorem needsEscape_iff (s col : Byte) : needsEscape s col = true ↔
    (s.toNat = 0 ∨ s.toNat = 10 ∨ s.toNat = 13 ∨ s.toNat = 61) ∨
    ((s.toNat = 9 ∨ s.toNat = 32) ∧ (col.toNat = 0 ∨ col.toNat = 127)) ∨
    (s.toNat = 46 ∧ col.toNat = 0) := by
  simp only [needsEscape_eq_refNeedsEscape, refNeedsEscape, Bool.or_eq_true, decide_eq_true_eq, or_assoc]

/-- Settles O8: the table is the decision of the pseudocode on integers. -/
theorem escapeDecisionIsTheRuleTable : Obligations.EscapeDecisionIsTheRuleTable := needsEscape_iff

/-- Settles O7: an escaped s is one of the rule table's seven, the largest of which is 61. -/
theorem shiftAndEscapedValueAreByteSums : Obligations.ShiftAndEscapedValueAreByteSums := by
  refine ⟨shifted_toNat, escapedValue_toNat, fun s col h => ?_⟩
  have hmax : s.toNat ≤ 61 := by have := (needsEscape_iff s col).mp h; omega
  rw [escapedValue_toNat]
  omega

/-- A value of ALWAYS_ESC is escaped at every COL, so a bare byte is none. -/
theorem not_mem_alwaysEsc_of_bare {s col : Byte} (h : needsEscape s col = false) : s ∉ alwaysEsc := by
  intro hs
  have hesc : needsEscape s col = true := (needsEscape_iff s col).mpr (.inl (mem_alwaysEsc_iff.mp hs))
  simp [h] at hesc

/-- A value outside ALWAYS_ESC is no byte with a meaning of its own in an output (spec/40_encode.md R93). -/
theorem ne_of_not_mem_alwaysEsc {s : Byte} (hs : s ∉ alwaysEsc) : s ≠ escapeByte ∧ s ≠ cr ∧ s ≠ lf := by
  refine ⟨?_, ?_, ?_⟩ <;>
    · rintro rfl
      exact hs (by decide)

/-- The escaped value of an escaped byte is one of the seven of R92. -/
theorem escapedValue_mem {s col : Byte} (h : needsEscape s col = true) : escapedValue s ∈ escapedValues := by
  have hseven : ∀ s ∈ alwaysEsc ++ wsEsc ++ dotEsc, escapedValue s ∈ escapedValues := by decide
  exact hseven s (needsEscape_mem h)

/-- The data bytes of a byte's units: an escape pair, or a bare value outside ALWAYS_ESC
(spec/40_encode.md R85, R93). -/
theorem dataOf_valueBeats (s col : Byte) :
    (needsEscape s col = true ∧ escapedValue s ∈ escapedValues ∧
      dataOf (valueBeats s col) = [escapeByte, escapedValue s]) ∨
    (needsEscape s col = false ∧ s ∉ alwaysEsc ∧ dataOf (valueBeats s col) = [s]) := by
  cases h : needsEscape s col with
  | true => exact .inl ⟨rfl, escapedValue_mem h, by simp [valueBeats, h, dataOf]⟩
  | false => exact .inr ⟨rfl, not_mem_alwaysEsc_of_bare h, by simp [valueBeats, h, dataOf]⟩

theorem dataOf_valueBeats_length (s col : Byte) :
    (dataOf (valueBeats s col)).length = if needsEscape s col then 2 else 1 :=
  (List.length_map ..).trans (valueBeats_length s col)

/-- The data bytes of a command: its byte's units, then the line break if there is one. -/
theorem dataOf_burst (u : EscUnits) (b : Byte) (last : Bool) (col : Byte) :
    dataOf (burst u b last col) = dataOf (valueBeats (shifted b) col) ++
      if breaksLine (columnAfter u (shifted b) col) last then [cr, lf] else [] := by
  rw [burst, dataOf_append]
  split <;> rfl

/-- The data bytes of a call, first byte apart. -/
theorem dataOf_callBeats_cons (u : EscUnits) (col b : Byte) (rest : List Byte) :
    dataOf (callBeats u col (b :: rest)) = dataOf (valueBeats (shifted b) col) ++
      ((if breaksLine (columnAfter u (shifted b) col) rest.isEmpty then [cr, lf] else []) ++
        dataOf (callBeats u (nextCol u b rest.isEmpty col) rest)) := by
  rw [callBeats, dataOf_append, dataOf_burst, List.append_assoc]

/-- No unit holds a CR or an LF (spec/40_encode.md R93). -/
theorem ne_break_of_mem_valueBeats {s col x : Byte} (hx : x ∈ dataOf (valueBeats s col)) :
    x ≠ cr ∧ x ≠ lf := by
  have hpair : ∀ x ∈ escapeByte :: escapedValues, x ≠ cr ∧ x ≠ lf := by decide
  obtain ⟨-, hv, hbytes⟩ | ⟨-, hs, hbytes⟩ := dataOf_valueBeats s col
  · rw [hbytes, List.mem_cons, List.mem_singleton] at hx
    obtain rfl | rfl := hx
    · exact hpair _ List.mem_cons_self
    · exact hpair _ (List.mem_cons_of_mem _ hv)
  · rw [hbytes, List.mem_singleton] at hx
    rw [hx]
    exact (ne_of_not_mem_alwaysEsc hs).2

/-! ### The decode oracle (spec/40_encode.md R100) -/

/-- The oracle reads a byte's units back as the byte, whatever follows them. -/
theorem decodeOutput_valueBeats (b col : Byte) (rest : List Byte) :
    decodeOutput (dataOf (valueBeats (shifted b) col) ++ rest) = b :: decodeOutput rest := by
  obtain ⟨-, -, hbytes⟩ | ⟨-, hs, hbytes⟩ := dataOf_valueBeats (shifted b) col
  · have hback : escapedValue (shifted b) - escapeShift - shift = b := by simp [escapedValue, shifted]
    rw [hbytes, List.cons_append, List.singleton_append, decodeOutput, hback]
    rfl
  · have hback : shifted b - shift = b := by simp [shifted]
    obtain ⟨hmarker, hcr, -⟩ := ne_of_not_mem_alwaysEsc hs
    rw [hbytes, List.singleton_append]
    cases rest <;> simp [decodeOutput, hmarker, hcr, hback]

/-- The oracle skips a line break. -/
theorem decodeOutput_break (rest : List Byte) : decodeOutput (cr :: lf :: rest) = decodeOutput rest := rfl

/-- From every column the oracle recovers the bytes of a call. -/
theorem decodeOutput_callBeats (u : EscUnits) (col : Byte) (xs : List Byte) :
    decodeOutput (dataOf (callBeats u col xs)) = xs := by
  induction xs generalizing col with
  | nil => rfl
  | cons b rest ih =>
    rw [dataOf_callBeats_cons, decodeOutput_valueBeats]
    split
    · rw [List.cons_append, List.singleton_append, decodeOutput_break, ih]
    · rw [List.nil_append, ih]

/-- Settles O44: a call starts at COL 0, one of the columns from which the oracle recovers it. -/
theorem decodeRecoversTheInput : Obligations.DecodeRecoversTheInput :=
  fun u xs => decodeOutput_callBeats u 0#8 xs

/-! ### COL and the bytes since the last LF (spec/40_encode.md R98) -/

/-- Bytes that hold no LF add their number to the bytes since the last LF. -/
theorem sinceBreak_append_of_no_lf {bs : List Byte} (hbs : ∀ x ∈ bs, x ≠ lf) (o : List Byte) :
    sinceBreak (o ++ bs) = sinceBreak o + bs.length := by
  have hrun : ∀ x ∈ bs.reverse, (x != lf) = true := by simpa using hbs
  rw [sinceBreak, List.reverse_append, List.takeWhile_append_of_pos hrun, List.length_append, List.length_reverse,
    Nat.add_comm]
  rfl

theorem sinceBreak_append_break (o : List Byte) : sinceBreak (o ++ [cr, lf]) = 0 := by
  simp [sinceBreak]

/-- In this hardware a byte moves COL by the number of data bytes of its units. -/
theorem columnAfter_escUnits (s col : Byte) :
    columnAfter escUnits s col = col.toNat + (dataOf (valueBeats s col)).length := by
  rw [dataOf_valueBeats_length]
  rfl

theorem nextCol_of_breaksLine {u : EscUnits} {b : Byte} {last : Bool} {col : Byte}
    (h : breaksLine (columnAfter u (shifted b) col) last = true) : nextCol u b last col = 0#8 := if_pos h

/-- Without a line break COL becomes the column that the byte's units reach. -/
theorem nextCol_toNat_of_not_breaksLine {u : EscUnits} {b : Byte} {last : Bool} {col : Byte}
    (h : ¬ breaksLine (columnAfter u (shifted b) col) last = true) :
    (nextCol u b last col).toNat = columnAfter u (shifted b) col := by
  have hlt : ¬ 128 ≤ columnAfter u (shifted b) col := fun hle => h (breaksLine_iff.mpr (.inl hle))
  rw [nextCol, if_neg h, BitVec.toNat_ofNat, Nat.mod_eq_of_lt (by omega)]

/-- A command keeps COL the number of bytes since the last LF. -/
theorem nextCol_eq_sinceBreak {o : List Byte} {col : Byte} (h : col.toNat = sinceBreak o) (b : Byte)
    (last : Bool) :
    (nextCol escUnits b last col).toNat = sinceBreak (o ++ dataOf (burst escUnits b last col)) := by
  rw [dataOf_burst]
  split
  case isTrue hbreak => rw [nextCol_of_breaksLine hbreak, ← List.append_assoc, sinceBreak_append_break]; rfl
  case isFalse hfits =>
    rw [nextCol_toNat_of_not_breaksLine hfits, columnAfter_escUnits, List.append_nil,
      sinceBreak_append_of_no_lf (fun x hx => (ne_break_of_mem_valueBeats hx).2), h]

/-- Settles O52: of the effects of a step only a command that is taken adds to OUT_HIST, and it moves COL by what it
adds after the last LF. -/
theorem stepsKeepColTheBytesSinceTheBreak : Obligations.StepsKeepColTheBytesSinceTheBreak := by
  intro s t c hc hcount hreset hresetWith h
  cases StepEffect.of_step h with
  | hold _ hcol _ _ hhist => exact ⟨c, hcol.trans hc, by rw [hhist, hcount]⟩
  | reset a ha hinput =>
    have hhead : s.input.head? = some a := by rw [hinput, List.head?_cons]
    obtain rfl | ⟨w, rfl⟩ := ha
    · exact absurd hhead hreset
    · exact absurd hhead (hresetWith w)
  | take w d _ _ hd hcol _ _ hhist =>
    obtain rfl : c = d := Option.some.inj (hc.symm.trans hd)
    exact ⟨_, hcol, by rw [hhist, dataOf_append, nextCol_eq_sinceBreak hcount]⟩

/-- With a value in COL the first of some commands runs, and the others go on from its next state. -/
theorem runInstrs_cons {i : Instr} {rest : List Instr} {s : State} {c : Byte} (hc : s.col = some c) :
    runInstrs (i :: rest) s = runInstrs rest (s.afterBeats (nextCol escUnits i.operand i.isLast c) (!i.isLast)
      (burst escUnits i.operand i.isLast c)) := by
  rw [runInstrs, exec_some hc]

/-- Beats appended after others are appended with them. -/
theorem State.afterBeats_afterBeats (s : State) (c d : Byte) (o p : Bool) (bs cs : List Beat) :
    (s.afterBeats c o bs).afterBeats d p cs = s.afterBeats d p (bs ++ cs) := by
  simp [State.afterBeats]

/-- ENCs append their beats one after another and leave the COL that these lead to. -/
theorem runInstrs_enc (xs : List Byte) {s : State} {c : Byte} (hc : s.col = some c) :
    ∃ t, runInstrs (xs.map Instr.enc) s = .next t ∧ t.out = s.out ++ encBeats escUnits c xs ∧
      t.col = some (encCol escUnits c xs) := by
  induction xs generalizing s c with
  | nil => exact ⟨s, rfl, (List.append_nil _).symm, hc⟩
  | cons b rest ih =>
    obtain ⟨t, hrun, hout, hcol⟩ := ih (State.afterBeats_col s (nextCol escUnits b false c) true
      (burst escUnits b false c))
    refine ⟨t, ?_, ?_, hcol⟩
    · rw [List.map_cons, runInstrs_cons hc]
      exact hrun
    · rw [hout, State.afterBeats_out, encBeats, List.append_assoc]

/-- ENCs keep COL the number of bytes since the last LF. -/
theorem encCol_eq_sinceBreak (xs : List Byte) {o : List Byte} {c : Byte} (h : c.toNat = sinceBreak o) :
    (encCol escUnits c xs).toNat = sinceBreak (o ++ dataOf (encBeats escUnits c xs)) := by
  induction xs generalizing o c with
  | nil => simpa [encCol, encBeats, dataOf] using h
  | cons b rest ih =>
    rw [encCol, encBeats, dataOf_append, ← List.append_assoc]
    exact ih (nextCol_eq_sinceBreak h b false)

/-- Settles O49: at COL 0 nothing has been emitted yet. -/
theorem colCountsDataBytesSinceTheBreak : Obligations.ColCountsDataBytesSinceTheBreak := by
  intro xs s hs
  obtain ⟨t, hrun, hout, hcol⟩ := runInstrs_enc xs hs
  exact ⟨t, _, _, hrun, hout, hcol, encCol_eq_sinceBreak xs (o := []) rfl⟩

/-! ### One command at a given COL (spec/40_encode.md R83, R87, R88, R92, R99) -/

theorem mem_alwaysEscapedInputs_iff {b : Byte} : b ∈ alwaysEscapedInputs ↔
    b.toNat = 19 ∨ b.toNat = 214 ∨ b.toNat = 224 ∨ b.toNat = 227 := by
  simp [alwaysEscapedInputs, ← BitVec.toNat_inj]

theorem mem_wsInputs_iff {b : Byte} : b ∈ wsInputs ↔ b.toNat = 223 ∨ b.toNat = 246 := by
  simp [wsInputs, ← BitVec.toNat_inj]

theorem mem_escapableInputs_iff {b : Byte} :
    b ∈ escapableInputs ↔ b.toNat = 4 ∨ b ∈ wsInputs ∨ b ∈ alwaysEscapedInputs := by
  simp [escapableInputs, ← BitVec.toNat_inj]

/-- The escape decision by the input byte (spec/40_encode.md R92). -/
theorem needsEscape_shifted_iff (b col : Byte) : needsEscape (shifted b) col = true ↔
    b ∈ alwaysEscapedInputs ∨ (b ∈ wsInputs ∧ (col.toNat = 0 ∨ col.toNat = 127)) ∨
      (b.toNat = 4 ∧ col.toNat = 0) := by
  have hb := b.isLt
  rw [needsEscape_iff, mem_alwaysEscapedInputs_iff, mem_wsInputs_iff, shifted_toNat]
  omega

/-- At COL 0 all seven bytes of R92 are escaped. -/
theorem needsEscape_shifted_at_zero (b : Byte) :
    needsEscape (shifted b) 0#8 = true ↔ b ∈ escapableInputs := by
  have hcol : (0#8 : Byte).toNat = 0 := rfl
  rw [needsEscape_shifted_iff, mem_escapableInputs_iff]
  tauto

/-- At COL 127 all of them but the dot's are. -/
theorem needsEscape_shifted_at_edge (b : Byte) :
    needsEscape (shifted b) 127#8 = true ↔ b ∈ wsInputs ++ alwaysEscapedInputs := by
  have hcol : (127#8 : Byte).toNat = 127 ∧ (127#8 : Byte).toNat ≠ 0 := by decide
  rw [needsEscape_shifted_iff, List.mem_append]
  tauto

/-- Between the edges only the four are that are escaped always. -/
theorem needsEscape_shifted_inside (b : Byte) {col : Byte} (hzero : col ≠ 0#8) (hedge : col ≠ 127#8) :
    needsEscape (shifted b) col = true ↔ b ∈ alwaysEscapedInputs := by
  have hcol : col.toNat ≠ 0 ∧ col.toNat ≠ 127 :=
    ⟨BitVec.toNat_ne_iff_ne.mpr hzero, BitVec.toNat_ne_iff_ne.mpr hedge⟩
  rw [needsEscape_shifted_iff]
  tauto

/-- A byte escapable at some column is escapable at COL 0. -/
theorem mem_escapableInputs_of_needsEscape {b col : Byte} (h : needsEscape (shifted b) col = true) :
    b ∈ escapableInputs := by
  rw [mem_escapableInputs_iff]
  rw [needsEscape_shifted_iff] at h
  tauto

section Command

variable {i : Instr} {s : State} {c : Byte} (hc : s.col = some c)
include hc

/-- A command whose byte is escaped: its whole next state. -/
theorem exec_escaped (h : needsEscape (shifted i.operand) c = true) : exec i s = .next
    (s.afterBeats (if breaksLine (c.toNat + 2) i.isLast then 0#8 else BitVec.ofNat 8 (c.toNat + 2)) (!i.isLast)
      ([⟨61#8, false⟩, ⟨i.operand + 106#8, false⟩] ++
        if breaksLine (c.toNat + 2) i.isLast then [⟨13#8, false⟩, ⟨10#8, i.isLast⟩] else [])) := by
  have hvalue : escapedValue (shifted i.operand) = i.operand + 106#8 := BitVec.add_assoc ..
  have hcolumn : columnAfter escUnits (shifted i.operand) c = c.toNat + 2 := by rw [columnAfter, if_pos h]; rfl
  rw [exec_some hc, nextCol, burst, hcolumn, valueBeats, if_pos h, hvalue]
  rfl

/-- A command whose byte is emitted bare: its whole next state. -/
theorem exec_bare (h : needsEscape (shifted i.operand) c = false) : exec i s = .next
    (s.afterBeats (if breaksLine (c.toNat + 1) i.isLast then 0#8 else BitVec.ofNat 8 (c.toNat + 1)) (!i.isLast)
      ([⟨i.operand + 42#8, false⟩] ++
        if breaksLine (c.toNat + 1) i.isLast then [⟨13#8, false⟩, ⟨10#8, i.isLast⟩] else [])) := by
  rw [exec_some hc, nextCol_bare h, burst_bare h]
  rfl

/-- ENC_LAST of an escaped byte: the line break follows whatever COL is. -/
theorem execLast_escaped {b : Byte} (h : needsEscape (shifted b) c = true) : exec (.encLast b) s = .next
    (s.afterBeats 0#8 false [⟨61#8, false⟩, ⟨b + 106#8, false⟩, ⟨13#8, false⟩, ⟨10#8, true⟩]) := by
  have hbreak : breaksLine (c.toNat + 2) true = true := breaksLine_iff.mpr (.inr rfl)
  rw [exec_escaped (i := .encLast b) hc h, Instr.isLast, hbreak]
  rfl

/-- ENC_LAST of a bare byte: likewise. -/
theorem execLast_bare {b : Byte} (h : needsEscape (shifted b) c = false) : exec (.encLast b) s = .next
    (s.afterBeats 0#8 false [⟨b + 42#8, false⟩, ⟨13#8, false⟩, ⟨10#8, true⟩]) := by
  have hbreak : breaksLine (c.toNat + 1) true = true := breaksLine_iff.mpr (.inr rfl)
  rw [exec_bare (i := .encLast b) hc h, Instr.isLast, hbreak]
  rfl

end Command

/-- Settles O17: at each COL named the escape decision is membership of a list of R92, and the line break compares
numbers. -/
theorem cornerCasesAtTheLineEdges : Obligations.CornerCasesAtTheLineEdges := by
  intro s
  have hbare {b c : Byte} {inputs : List Byte} (h : needsEscape (shifted b) c = true ↔ b ∈ inputs)
      (hb : b ∉ inputs) : needsEscape (shifted b) c = false := Bool.eq_false_iff.mpr (mt h.mp hb)
  have hzero := needsEscape_shifted_at_zero
  have hedge := needsEscape_shifted_at_edge
  have hinside {c : Byte} (h0 : c ≠ 0#8) (h127 : c ≠ 127#8) (b : Byte) := needsEscape_shifted_inside b h0 h127
  refine ⟨fun hc => ⟨fun b hb => ?_, fun b hb => ?_, ?_, ?_, ?_⟩, fun hc b hb => ?_,
    fun hc => ⟨fun b hb => ?_, fun b hb => ?_⟩, fun hc => ⟨fun b hb => ?_, fun b hb => ?_⟩,
    fun hc => ⟨fun b hb => ?_, fun b hb => ?_⟩, fun hc => ⟨fun b hb => ?_, fun b hb => ?_⟩,
    fun c h0 h127 hc => ⟨fun b hb => ?_, fun b hb => ?_⟩⟩
  · exact exec_escaped hc ((hzero b).mpr hb)
  · exact exec_bare hc (hbare (hzero b) hb)
  · exact exec_bare hc (by decide)
  · exact exec_escaped hc (by decide)
  · exact exec_bare hc (by decide)
  · exact exec_escaped hc ((hinside (by decide) (by decide) b).mpr hb)
  · exact exec_escaped hc ((hinside (by decide) (by decide) b).mpr hb)
  · exact exec_bare hc (hbare (hinside (by decide) (by decide) b) hb)
  · exact exec_escaped hc ((hedge b).mpr hb)
  · exact exec_bare hc (hbare (hedge b) hb)
  · exact execLast_escaped hc ((hzero b).mpr hb)
  · exact execLast_bare hc (hbare (hzero b) hb)
  · exact execLast_escaped hc ((hedge b).mpr hb)
  · exact execLast_bare hc (hbare (hedge b) hb)
  · exact execLast_escaped hc ((hinside h0 h127 b).mpr hb)
  · exact execLast_bare hc (hbare (hinside h0 h127 b) hb)

/-- Settles O16: a tab or space is no byte that is escaped always, nor the dot's. -/
theorem trailingTabOrSpaceIsBareMidLine : Obligations.TrailingTabOrSpaceIsBareMidLine := by
  intro b s c hc hb
  rw [List.mem_pair, ← shifted_toNat] at hb
  have hdecision : needsEscape (shifted b) c = true ↔ c.toNat = 0 ∨ c.toNat = 127 := by
    rw [needsEscape_iff]
    omega
  split
  case isTrue hcol => exact ⟨_, execLast_escaped hc (hdecision.mpr hcol), rfl⟩
  case isFalse hcol => exact ⟨_, execLast_bare hc (Bool.eq_false_iff.mpr (mt hdecision.mp hcol)), rfl⟩

/-- Settles O20: both commands emit the byte's units, whose number is the column advance. -/
theorem escapeDoesNotDependOnTheLineBreak : Obligations.EscapeDoesNotDependOnTheLineBreak := by
  intro b s c hc
  refine ⟨valueBeats (shifted b) c, _, _, _, exec_some hc, exec_some hc, rfl, ?_, valueBeats_length .., ?_⟩
  · simp only [State.afterBeats_out, Instr.operand, Instr.isLast, burst_last, List.append_assoc]
    rfl
  · have hcolumn : columnAfter escUnits (shifted b) c = c.toNat + (valueBeats (shifted b) c).length := by
      rw [valueBeats_length]; rfl
    simp only [Instr.operand, Instr.isLast, breaksLine_iff, hcolumn, Bool.false_eq_true, or_false]
    rfl

/-- Settles O9: the escape decision by the input byte is a case distinction on the lists of R92. -/
theorem sevenInputBytesCanBeEscaped : Obligations.SevenInputBytesCanBeEscaped := by
  have hseven (b : Byte) : b ∈ [0x04#8, 0x13#8, 0xD6#8, 0xDF#8, 0xE0#8, 0xE3#8, 0xF6#8] ↔ b ∈ escapableInputs :=
    List.Perm.mem_iff (by decide)
  refine ⟨fun b => ?_, fun col => ?_, by decide, by decide, fun i s c hc hi => ?_⟩
  · rw [hseven]
    exact ⟨fun ⟨_, h⟩ => mem_escapableInputs_of_needsEscape h, fun h => ⟨0#8, (needsEscape_shifted_at_zero b).mpr h⟩⟩
  · simp [needsEscape_shifted_iff, alwaysEscapedInputs, wsInputs, ← BitVec.toNat_inj]
  · rw [hseven] at hi
    have hbare : needsEscape (shifted i.operand) c = false :=
      Bool.eq_false_iff.mpr (mt mem_escapableInputs_of_needsEscape hi)
    have hshift : BitVec.ofNat 8 ((i.operand.toNat + 42) % 256) = i.operand + 42#8 := by
      rw [← shifted_toNat, BitVec.ofNat_toNat, BitVec.setWidth_eq]
      rfl
    refine ⟨_, _, exec_bare hc hbare, by rw [hshift]; rfl, ?_⟩
    split
    · exact .inr rfl
    · exact .inl rfl

/-- Settles O11: the beats and the COL of a command are those of `refStep`. -/
theorem commandsMatchTheSpecsPseudocode : Obligations.CommandsMatchTheSpecsPseudocode := by
  intro i s c hc
  rw [refStep_toNat]
  exact ⟨_, _, exec_some hc, rfl, rfl, by simp⟩

/-- Settles O12: the next state of `exec_some`, with its beats and COL on integers. -/
theorem encRunsEncodeStepWithLastZero : Obligations.EncRunsEncodeStepWithLastZero := by
  intro b s c hc
  obtain ⟨hmin, hmax⟩ := burst_length escUnits b false c
  rw [refStep_toNat]
  refine ⟨decode_ofNat_of_encode_toNat (encode_enc_toNat b), _, ?_, rfl, hmin, hmax,
    fun x => last_eq_false_of_mem_burst⟩
  rw [exec_some hc, BitVec.ofNat_toNat, BitVec.setWidth_eq]
  rfl

/-- Settles O13: before the final LF stand the byte's one or two units and a CR. -/
theorem encLastRunsEncodeStepWithLastOne : Obligations.EncLastRunsEncodeStepWithLastOne := by
  intro b s c hc
  refine ⟨decode_ofNat_of_encode_toNat (encode_encLast_toNat b), valueBeats (shifted b) c ++ [⟨cr, false⟩],
    ?_, ?_, ?_, ?_, List.getLast?_concat⟩
  · rw [exec_some hc, Instr.operand, Instr.isLast, nextCol_last, burst_last]
    rfl
  · rw [refStep_toNat, burst_last]
    rfl
  · rw [List.length_append, valueBeats_length]
    split
    · exact .inr rfl
    · exact .inl rfl
  · exact List.forall_mem_append.mpr
      ⟨fun x => last_eq_false_of_mem_valueBeats, List.forall_mem_singleton.mpr rfl⟩

/-! ### A whole call (spec/40_encode.md R89, R97) -/

/-- The commands of a call that is not empty append its beats, close the call and leave COL at 0. -/
theorem runInstrs_call {xs : List Byte} (hxs : xs ≠ []) {s : State} {c : Byte} (hc : s.col = some c) :
    runInstrs (callInstrs xs) s = .next (s.afterBeats 0#8 false (callBeats escUnits c xs)) := by
  induction xs generalizing s c with
  | nil => exact absurd rfl hxs
  | cons b rest ih =>
    cases rest with
    | nil =>
      have hcall : callInstrs [b] = [.encLast b] := rfl
      rw [hcall, runInstrs_cons hc, callBeats, callBeats, List.append_nil, Instr.operand, Instr.isLast, nextCol_last]
      rfl
    | cons b' rest =>
      have hcall : callInstrs (b :: b' :: rest) = .enc b :: callInstrs (b' :: rest) := rfl
      rw [hcall, runInstrs_cons hc, ih (List.cons_ne_nil _ _) (State.afterBeats_col ..), State.afterBeats_afterBeats,
        callBeats]
      rfl

/-- The data bytes of a call are those that the pseudocode computes on integers. -/
theorem dataOf_callBeats_toNat (c : Byte) (xs : List Byte) :
    (dataOf (callBeats escUnits c xs)).map BitVec.toNat = refCall c.toNat (xs.map BitVec.toNat) := by
  induction xs generalizing c with
  | nil => rfl
  | cons b rest ih =>
    have hlast : (rest.map BitVec.toNat).isEmpty = rest.isEmpty := List.isEmpty_map
    rw [List.map_cons, refCall, hlast, refStep_toNat, ← ih, callBeats, dataOf_append, List.map_append]
    simp [dataOf, beatPair, Function.comp_def]

/-- The output of a call that is not empty ends with a line break. -/
theorem encodeCall_eq_append_break (u : EscUnits) {xs : List Byte} (hxs : xs ≠ []) :
    ∃ o, encodeCall u xs = o ++ [cr, lf] := by
  rw [encodeCall, ← List.dropLast_append_getLast hxs, callBeats_append (List.cons_ne_nil _ _), callBeats,
    List.isEmpty_nil, callBeats, List.append_nil, burst_last, List.append_assoc, ← List.append_assoc, dataOf_append]
  exact ⟨_, rfl⟩

/-- Settles O41: the call closes itself, and only the empty one leaves the state as it was. -/
theorem callComputesEncode : Obligations.CallComputesEncode := by
  intro xs s hs
  refine ⟨?_, dataOf_callBeats_toNat 0#8 xs, encodeCall_eq_append_break escUnits⟩
  cases xs with
  | nil => simp [callInstrs, runInstrs, callBeats]
  | cons b rest =>
    rw [runInstrs_call (List.cons_ne_nil b rest) hs, State.afterBeats, hs]
    rfl

/-! ### The output alphabet (spec/40_encode.md R93) -/

theorem alphabetOk_valueBeats (s col : Byte) (rest : List Byte) :
    alphabetOk (dataOf (valueBeats s col) ++ rest) = alphabetOk rest := by
  obtain ⟨-, hv, hbytes⟩ | ⟨-, hs, hbytes⟩ := dataOf_valueBeats s col
  · rw [hbytes, List.cons_append, List.singleton_append, alphabetOk, List.contains_iff_mem.mpr hv]
    rfl
  · obtain ⟨hmarker, hcr, -⟩ := ne_of_not_mem_alwaysEsc hs
    rw [hbytes, List.singleton_append]
    cases rest <;> simp [alphabetOk, hmarker, hcr, hs]

theorem alphabetOk_break (rest : List Byte) : alphabetOk (cr :: lf :: rest) = alphabetOk rest := rfl

/-- From every column a call's output is made of the alphabet. -/
theorem alphabetOk_callBeats (u : EscUnits) (col : Byte) (xs : List Byte) :
    alphabetOk (dataOf (callBeats u col xs)) = true := by
  induction xs generalizing col with
  | nil => rfl
  | cons b rest ih =>
    rw [dataOf_callBeats_cons, alphabetOk_valueBeats]
    split
    · rw [List.cons_append, List.singleton_append, alphabetOk_break, ih]
    · rw [List.nil_append, ih]

/-- The alphabet has no 0: neither a marker, nor an escaped value, nor a bare value, nor a CR or LF is 0. -/
theorem zero_not_mem_of_alphabetOk {o : List Byte} (h : alphabetOk o = true) : 0#8 ∉ o := by
  have hzero : 0#8 ∈ alwaysEsc ∧ 0#8 ∉ escapedValues ∧ 0#8 ≠ escapeByte ∧ 0#8 ≠ cr ∧ 0#8 ≠ lf := by decide
  obtain ⟨halways, hvalues, hmarker, hcr, hlf⟩ := hzero
  have hbare {x : Byte} (hx : x ∉ alwaysEsc) : 0#8 ≠ x := fun h0 => hx (h0 ▸ halways)
  induction o using alphabetOk.induct with
  | case1 => exact List.not_mem_nil
  | case2 x =>
    have hx : x ∉ alwaysEsc := by simpa [alphabetOk] using h
    simpa using hbare hx
  | case3 x y rest hx ih =>
    obtain rfl : x = escapeByte := by simpa using hx
    obtain ⟨hy, hrest⟩ : y ∈ escapedValues ∧ alphabetOk rest = true := by simpa [alphabetOk] using h
    have hy0 : 0#8 ≠ y := fun h0 => hvalues (h0 ▸ hy)
    simp [hmarker, hy0, ih hrest]
  | case4 x y rest hx hx' ih =>
    obtain rfl : x = cr := by simpa using hx'
    obtain ⟨rfl, hrest⟩ : y = lf ∧ alphabetOk rest = true := by simpa [alphabetOk, hx] using h
    simp [hcr, hlf, ih hrest]
  | case5 x y rest hx hx' ih =>
    obtain ⟨hxa, hrest⟩ : x ∉ alwaysEsc ∧ alphabetOk (y :: rest) = true := by
      simpa [alphabetOk, hx, hx'] using h
    exact List.not_mem_cons_of_ne_of_not_mem (hbare hxa) (ih hrest)

/-! ### The lines of an output (spec/40_encode.md R93 to R96) -/

/-- Bytes without a CR or LF go on the current line. -/
theorem linesFrom_append_of_no_break {bs : List Byte} (hbs : ∀ x ∈ bs, x ≠ cr ∧ x ≠ lf)
    (cur rest : List Byte) : linesFrom cur (bs ++ rest) = linesFrom (cur ++ bs) rest := by
  induction bs generalizing cur with
  | nil => rw [List.nil_append, List.append_nil]
  | cons x bs ih =>
    obtain ⟨⟨hcr, hlf⟩, hbs⟩ := List.forall_mem_cons.mp hbs
    simp [linesFrom, hcr, hlf, ih hbs]

/-- A line break ends the current line. -/
theorem linesFrom_break (cur rest : List Byte) : linesFrom cur (cr :: lf :: rest) = cur :: linesFrom [] rest := rfl

/-- The lines of a call whose current line holds `cur`, first byte apart. -/
theorem linesFrom_callBeats_cons (u : EscUnits) (cur : List Byte) (col b : Byte) (rest : List Byte) :
    linesFrom cur (dataOf (callBeats u col (b :: rest))) =
      if breaksLine (columnAfter u (shifted b) col) rest.isEmpty then
        (cur ++ dataOf (valueBeats (shifted b) col)) :: linesFrom [] (dataOf (callBeats u 0#8 rest))
      else linesFrom (cur ++ dataOf (valueBeats (shifted b) col))
        (dataOf (callBeats u (nextCol u b rest.isEmpty col) rest)) := by
  rw [dataOf_callBeats_cons, linesFrom_append_of_no_break fun x => ne_break_of_mem_valueBeats]
  split
  case isTrue hbreak =>
    rw [nextCol_of_breaksLine hbreak, List.cons_append, List.singleton_append, linesFrom_break]
  case isFalse => rfl

/-- `LineAt u c l`: `l` holds the units of a line, each started below LINE_LENGTH, whose column is `c`.
`linesFrom_call` ties it to the lines of a call's output. -/
inductive LineAt (u : EscUnits) : Nat → List Byte → Prop where
  /-- A line starts at column 0 with nothing on it. -/
  | start : LineAt u 0 []
  /-- The units of a byte move the column on. -/
  | emit {l : List Byte} {col : Byte} (s : Byte) (hl : LineAt u col.toNat l) (hcol : col.toNat < 128) :
    LineAt u (columnAfter u s col) (l ++ dataOf (valueBeats s col))

theorem one_le_columnAfter (u : EscUnits) (s col : Byte) : 1 ≤ columnAfter u s col := by
  have := one_le_count u
  unfold columnAfter
  split <;> omega

/-- A call of one byte, at any column, ends its line. -/
theorem linesFrom_callBeats_singleton (u : EscUnits) (cur : List Byte) (col b : Byte) :
    linesFrom cur (dataOf (callBeats u col [b])) = [cur ++ dataOf (valueBeats (shifted b) col)] := by
  have hbreak : breaksLine (columnAfter u (shifted b) col) true = true := breaksLine_iff.mpr (.inr rfl)
  rw [linesFrom_callBeats_cons, List.isEmpty_nil, if_pos hbreak]
  rfl

/-- The lines of a call that is not empty: full ones, which reached LINE_LENGTH, and the last one. -/
theorem linesFrom_call (u : EscUnits) {xs : List Byte} (hxs : xs ≠ []) {cur : List Byte} {col : Byte}
    (hcur : LineAt u col.toNat cur) (hcol : col.toNat < 128) :
    ∃ full last, linesFrom cur (dataOf (callBeats u col xs)) = full ++ [last] ∧
      (∀ l ∈ full, ∃ c, 128 ≤ c ∧ LineAt u c l) ∧ ∃ c, 1 ≤ c ∧ LineAt u c last := by
  induction xs generalizing cur col with
  | nil => exact absurd rfl hxs
  | cons b rest ih =>
    have hline := LineAt.emit (shifted b) hcur hcol
    cases rest with
    | nil =>
      rw [linesFrom_callBeats_singleton]
      exact ⟨[], _, rfl, List.forall_mem_nil _, _, one_le_columnAfter .., hline⟩
    | cons b' rest =>
      rw [linesFrom_callBeats_cons]
      split
      case isTrue hbreak =>
        have hlong : 128 ≤ columnAfter u (shifted b) col := by simpa [breaksLine_iff] using hbreak
        obtain ⟨full, last, hlines, hfull, hlast⟩ :=
          ih (List.cons_ne_nil _ _) (col := 0#8) (LineAt.start (u := u)) (by decide)
        exact ⟨_ :: full, last, by rw [hlines]; rfl, List.forall_mem_cons.mpr ⟨⟨_, hlong, hline⟩, hfull⟩, hlast⟩
      case isFalse hfits =>
        rw [← nextCol_toNat_of_not_breaksLine hfits] at hline
        exact ih (List.cons_ne_nil _ _) hline (nextCol_lt ..)

/-- The lines of a whole call. -/
theorem outputLines_call (u : EscUnits) {xs : List Byte} (hxs : xs ≠ []) :
    ∃ full last, outputLines (encodeCall u xs) = full ++ [last] ∧
      (∀ l ∈ full, ∃ c, 128 ≤ c ∧ LineAt u c l) ∧ ∃ c, 1 ≤ c ∧ LineAt u c last :=
  linesFrom_call u hxs (col := 0#8) .start (by decide)

/-- Every line of a call, the last or not, holds at least one unit. -/
theorem lineAt_of_mem_outputLines {u : EscUnits} {xs l : List Byte} (hl : l ∈ outputLines (encodeCall u xs)) :
    ∃ c, 1 ≤ c ∧ LineAt u c l := by
  cases xs with
  | nil => cases hl
  | cons b rest =>
    obtain ⟨full, last, hlines, hfull, hlast⟩ := outputLines_call u (List.cons_ne_nil b rest)
    rw [hlines, List.mem_append, List.mem_singleton] at hl
    obtain hmem | rfl := hl
    · obtain ⟨c, hc, hline⟩ := hfull l hmem
      exact ⟨c, by omega, hline⟩
    · exact hlast

/-- Every line of a call but the last reached LINE_LENGTH. -/
theorem lineAt_of_mem_dropLast {u : EscUnits} {xs l : List Byte}
    (hl : l ∈ (outputLines (encodeCall u xs)).dropLast) : ∃ c, 128 ≤ c ∧ LineAt u c l := by
  cases xs with
  | nil => cases hl
  | cons b rest =>
    obtain ⟨full, last, hlines, hfull, -⟩ := outputLines_call u (List.cons_ne_nil b rest)
    rw [hlines, List.dropLast_concat] at hl
    exact hfull l hl

/-! ### What stands on a line -/

section Line

variable {u : EscUnits} {c : Nat} {l : List Byte}

theorem unitsOf_valueBeats (u : EscUnits) (s col : Byte) (rest : List Byte) :
    col.toNat + unitsOf u (dataOf (valueBeats s col) ++ rest) = columnAfter u s col + unitsOf u rest := by
  obtain ⟨hesc, -, hbytes⟩ | ⟨hesc, hs, hbytes⟩ := dataOf_valueBeats s col
  · rw [hbytes, columnAfter, if_pos hesc, Nat.add_assoc]
    rfl
  · obtain ⟨hmarker, -⟩ := ne_of_not_mem_alwaysEsc hs
    rw [hbytes, List.singleton_append, columnAfter, hesc, Nat.add_assoc]
    cases rest <;> simp [unitsOf, hmarker]

/-- A line counts as many units as its column says. -/
theorem LineAt.unitsOf_eq (h : LineAt u c l) : unitsOf u l = c := by
  have happend : ∀ rest, unitsOf u (l ++ rest) = c + unitsOf u rest := by
    induction h with
    | start => exact fun rest => (Nat.zero_add _).symm
    | emit s _ _ ih =>
      intro rest
      rw [List.append_assoc, ih, unitsOf_valueBeats]
  simpa [unitsOf] using happend []

/-- The column of a line is at most one byte past LINE_LENGTH - 1. -/
theorem LineAt.le (h : LineAt u c l) : c ≤ 127 + u.count := by
  cases h with
  | start => exact Nat.zero_le _
  | emit s _ hcol => exact (columnAfter_le u s _).trans (by omega)

/-- With two units to an escape a line's column is the number of its data bytes. -/
theorem LineAt.length_eq (h : LineAt .two c l) : l.length = c := by
  induction h with
  | start => rfl
  | emit s _ _ ih => rw [List.length_append, ih]; exact (columnAfter_escUnits s _).symm

/-- A unit is at most two data bytes. -/
theorem LineAt.length_le (h : LineAt u c l) : l.length ≤ 2 * c := by
  have := one_le_count u
  induction h with
  | start => exact Nat.zero_le _
  | emit s _ _ ih =>
    rw [List.length_append, dataOf_valueBeats_length, columnAfter]
    split <;> omega

/-- Only at column 0 does a line hold nothing. -/
theorem LineAt.eq_zero_of_nil (h : LineAt u c []) : c = 0 := by
  generalize hl : ([] : List Byte) = l at h
  cases h with
  | start => rfl
  | emit s _ _ =>
    have hlen := congrArg List.length hl
    rw [List.length_nil, List.length_append, dataOf_valueBeats_length] at hlen
    split at hlen <;> omega

/-- A line never starts with a bare tab, space or dot: they are escaped at COL 0. -/
theorem LineAt.head_not_mem (h : LineAt u c l) {x : Byte} (hx : l.head? = some x) : x ∉ [9#8, 32#8, 46#8] := by
  induction h with
  | start => cases hx
  | @emit l col s hl _ ih =>
    cases l with
    | cons y ys => exact ih hx
    | nil =>
      obtain rfl : col = 0#8 := BitVec.eq_of_toNat_eq hl.eq_zero_of_nil
      obtain ⟨-, -, hbytes⟩ | ⟨hesc, -, hbytes⟩ := dataOf_valueBeats s 0#8
      · rw [hbytes] at hx
        cases hx
        decide
      · rw [hbytes] at hx
        cases hx
        have hstart : ∀ y ∈ [9#8, 32#8, 46#8], needsEscape y 0#8 = true := by decide
        exact fun hmem => by simp [hstart _ hmem] at hesc

/-- A full line never ends with a bare tab or space: they are escaped at COL 127. -/
theorem LineAt.getLast_not_mem (h : LineAt u c l) (hc : 128 ≤ c) {x : Byte} (hx : l.getLast? = some x) :
    x ∉ [9#8, 32#8] := by
  cases h with
  | start => omega
  | @emit l col s _ hcol =>
    obtain ⟨-, hv, hbytes⟩ | ⟨hesc, -, hbytes⟩ := dataOf_valueBeats s col
    · have hvalues : ∀ v ∈ escapedValues, v ∉ [9#8, 32#8] := by decide
      obtain rfl : escapedValue s = x := by simpa [hbytes] using hx
      exact hvalues _ hv
    · obtain rfl : s = x := by simpa [hbytes] using hx
      have hcolumn : columnAfter u s col = col.toNat + 1 := by simp [columnAfter, hesc]
      obtain rfl : col = 127#8 := BitVec.eq_of_toNat_eq (show col.toNat = 127 by omega)
      have hend : ∀ y ∈ [9#8, 32#8], needsEscape y 127#8 = true := by decide
      exact fun hmem => by simp [hend _ hmem] at hesc

/-- A full line of this hardware holds 129 data bytes exactly when its last byte is escaped at COL 127. -/
theorem LineAt.eq_max_iff (h : LineAt .two c l) (hc : 128 ≤ c) :
    c = 129 ↔ ∃ v, l = l.take 127 ++ [61#8, v] := by
  have hlen := h.length_eq
  constructor
  · intro hmax
    cases h with
    | start => omega
    | @emit l col s hl hcol =>
      obtain ⟨rfl, hesc⟩ := (columnAfter_escUnits_eq_max_iff hcol).mp hmax
      have hbytes : dataOf (valueBeats s 127#8) = [61#8, escapedValue s] := by rw [valueBeats, if_pos hesc]; rfl
      have htake : (l ++ dataOf (valueBeats s 127#8)).take 127 = l := List.take_left' hl.length_eq
      exact ⟨escapedValue s, by rw [htake, hbytes]⟩
  · rintro ⟨v, hv⟩
    have hsum := congrArg List.length hv
    rw [List.length_append, List.length_take, List.length_cons, List.length_singleton] at hsum
    omega

end Line

/-- Settles O45: line starts stand at COL 0 and the ends of full lines at COL 127, where white space is escaped. -/
theorem outputAlphabet : Obligations.OutputAlphabet := by
  intro u xs
  have halphabet := alphabetOk_callBeats u 0#8 xs
  refine ⟨halphabet, zero_not_mem_of_alphabetOk halphabet, fun l hl x hx => ?_, fun l hl x hx => ?_⟩
  · obtain ⟨c, -, hline⟩ := lineAt_of_mem_outputLines hl
    exact hline.head_not_mem hx
  · obtain ⟨c, hc, hline⟩ := lineAt_of_mem_dropLast hl
    exact hline.getLast_not_mem hc hx

/-- Settles O47: a full line has reached column 128, and no column exceeds 127 + ESC_UNITS. -/
theorem lineLengths : Obligations.LineLengths := by
  intro xs
  refine ⟨fun l hl => ?_, fun l hl => ?_, fun l hl => ?_⟩
  · obtain ⟨c, hc, hline⟩ := lineAt_of_mem_dropLast hl
    have hmax : c ≤ 129 := hline.le
    rw [hline.length_eq]
    exact ⟨by omega, hline.eq_max_iff hc⟩
  · obtain ⟨c, hc, hline⟩ := lineAt_of_mem_outputLines (List.mem_of_getLast? hl)
    rw [hline.length_eq]
    exact ⟨hc, hline.le⟩
  · obtain ⟨c, hc, hline⟩ := lineAt_of_mem_dropLast hl
    have hmax : c ≤ 128 := hline.le
    rw [hline.unitsOf_eq]
    omega

/-- A line of 129 data bytes: 127 bare ones, then a tab, which COL 127 escapes. -/
theorem outputLines_replicate_one_append_tab :
    outputLines (encodeCall .two (List.replicate 127 0x01#8 ++ [0xDF#8])) =
      [List.replicate 127 0x2B#8 ++ [61#8, 73#8]] := by
  obtain ⟨hbeats, hcol⟩ :=
    enc_replicate_bare (u := .two) needsEscape_shifted_one (n := 127) (col := 0#8) (by decide)
  have hbare : ∀ x ∈ List.replicate 127 (shifted 0x01#8), x ≠ cr ∧ x ≠ lf := by
    intro x hx
    rw [List.eq_of_mem_replicate hx]
    decide
  rw [encodeCall, callBeats_append (List.cons_ne_nil _ _), hbeats, hcol, dataOf_append, dataOf_replicate,
    outputLines, linesFrom_append_of_no_break hbare, linesFrom_callBeats_singleton]
  rfl

/-- Settles O46: every line counts its column in units, and the line above reaches the greatest one. -/
theorem lineWidthBound : Obligations.LineWidthBound := by
  refine ⟨fun u xs l hl => ?_, List.replicate 127 0x01#8 ++ [0xDF#8], ?_⟩
  · obtain ⟨c, hc, hline⟩ := lineAt_of_mem_outputLines hl
    rw [hline.unitsOf_eq]
    refine ⟨hc, hline.le, ?_, ?_⟩
    · rintro rfl
      exact ⟨hline.length_eq.symm, hline.length_eq.trans_le hline.le⟩
    · rintro rfl
      have hmax : c ≤ 128 := hline.le
      have hlen := hline.length_le
      exact ⟨hmax, by omega⟩
  · have hmem : List.replicate 127 0x2B#8 ++ [61#8, 73#8] ∈
        outputLines (encodeCall .two (List.replicate 127 0x01#8 ++ [0xDF#8])) := by
      rw [outputLines_replicate_one_append_tab]
      exact List.mem_singleton_self _
    obtain ⟨c, -, hline⟩ := lineAt_of_mem_outputLines hmem
    refine ⟨_, hmem, ?_⟩
    rw [hline.unitsOf_eq, ← hline.length_eq, List.length_append, List.length_replicate]
    rfl

/-! ### The output length (spec/40_encode.md R96) -/

/-- The column units of a call's bytes, with those that its current line holds already. -/
def callUnits (u : EscUnits) (col : Byte) (xs : List Byte) : Nat :=
  col.toNat + xs.length + (u.count - 1) * escapedCount u col xs

/-- The units of the first byte are its column advance. -/
theorem callUnits_cons (u : EscUnits) (col b : Byte) (rest : List Byte) :
    callUnits u col (b :: rest) + (nextCol u b rest.isEmpty col).toNat =
      columnAfter u (shifted b) col + callUnits u (nextCol u b rest.isEmpty col) rest := by
  have := one_le_count u
  rw [callUnits, callUnits, escapedCount, columnAfter, List.length_cons]
  split
  · rw [Nat.mul_add]
    omega
  · rw [Nat.zero_add]
    omega

/-- A call that is not empty has as many lines as its units fill: every line but the last holds 128 or more, and
none holds more than 127 + ESC_UNITS. -/
theorem linesFrom_length_bounds (u : EscUnits) {xs : List Byte} (hxs : xs ≠ []) (cur : List Byte) {col : Byte}
    (hcol : col.toNat < 128) :
    128 * (linesFrom cur (dataOf (callBeats u col xs))).length ≤ callUnits u col xs + 127 ∧
      callUnits u col xs ≤ (127 + u.count) * (linesFrom cur (dataOf (callBeats u col xs))).length := by
  induction xs generalizing cur col with
  | nil => exact absurd rfl hxs
  | cons b rest ih =>
    have hstep := callUnits_cons u col b rest
    have hmin := one_le_columnAfter u (shifted b) col
    have hmax := columnAfter_le u (shifted b) col
    cases rest with
    | nil =>
      rw [linesFrom_callBeats_singleton, List.length_singleton]
      rw [List.isEmpty_nil, nextCol_last] at hstep
      have hunits : callUnits u col [b] = columnAfter u (shifted b) col := hstep
      omega
    | cons b' rest =>
      rw [linesFrom_callBeats_cons]
      split
      case isTrue hbreak =>
        have hlong : 128 ≤ columnAfter u (shifted b) col := by simpa [breaksLine_iff] using hbreak
        obtain ⟨hlow, hhigh⟩ := ih (List.cons_ne_nil _ _) [] (col := 0#8) (by decide)
        rw [nextCol_of_breaksLine hbreak, BitVec.toNat_ofNat] at hstep
        rw [List.length_cons, Nat.mul_succ, Nat.mul_succ]
        omega
      case isFalse hfits =>
        obtain ⟨hlow, hhigh⟩ := ih (List.cons_ne_nil _ _) (cur ++ dataOf (valueBeats (shifted b) col))
          (nextCol_lt u b (b' :: rest).isEmpty col)
        rw [nextCol_toNat_of_not_breaksLine hfits] at hstep
        omega

/-- Every input byte adds one data byte, every escape one more, and every line two. -/
theorem dataOf_callBeats_length (u : EscUnits) {xs : List Byte} {cur : List Byte} (hcur : xs = [] → cur = [])
    (col : Byte) : (dataOf (callBeats u col xs)).length = xs.length + escapedCount u col xs +
      2 * (linesFrom cur (dataOf (callBeats u col xs))).length := by
  induction xs generalizing cur col with
  | nil => rw [hcur rfl]; rfl
  | cons b rest ih =>
    have hunits : (dataOf (valueBeats (shifted b) col)).length =
        (if needsEscape (shifted b) col then 1 else 0) + 1 := by
      rw [dataOf_valueBeats_length]
      split <;> rfl
    rw [linesFrom_callBeats_cons, dataOf_callBeats_cons, escapedCount, List.length_append, List.length_append,
      hunits]
    by_cases hbreak : breaksLine (columnAfter u (shifted b) col) rest.isEmpty = true
    · have hrest := ih (cur := []) (fun _ => rfl) 0#8
      rw [if_pos hbreak, if_pos hbreak, nextCol_of_breaksLine hbreak]
      simp only [List.length_cons, List.length_nil]
      omega
    · have hne : rest ≠ [] := by
        rintro rfl
        exact hbreak (breaksLine_iff.mpr (.inr rfl))
      have hrest := ih (cur := cur ++ dataOf (valueBeats (shifted b) col)) (fun h => absurd h hne)
        (nextCol u b rest.isEmpty col)
      rw [if_neg hbreak, if_neg hbreak, List.length_cons, List.length_nil]
      omega

theorem escapedCount_le (u : EscUnits) (col : Byte) (xs : List Byte) : escapedCount u col xs ≤ xs.length := by
  induction xs generalizing col with
  | nil => exact Nat.le_refl _
  | cons b rest ih =>
    have := ih (nextCol u b rest.isEmpty col)
    rw [escapedCount, List.length_cons]
    split <;> omega

/-- Bytes that are always escaped count one escape each. -/
theorem escapedCount_replicate {b : Byte} (hb : ∀ c, needsEscape (shifted b) c = true) (u : EscUnits) (col : Byte)
    (n : Nat) : escapedCount u col (List.replicate n b) = n := by
  induction n generalizing col with
  | zero => rfl
  | succ n ih => rw [List.replicate_succ, escapedCount, if_pos (hb col), ih, Nat.add_comm]

/-- The output length of a call (spec/40_encode.md R96). -/
theorem encodeCall_length (u : EscUnits) (xs : List Byte) : (encodeCall u xs).length =
    xs.length + escapedCount u 0#8 xs + 2 * (outputLines (encodeCall u xs)).length :=
  dataOf_callBeats_length u (fun _ => rfl) 0#8

/-- How many lines a call of `n` bytes with `E` escapes has: its `n + (ESC_UNITS - 1) E` units in lines of 128 to
127 + ESC_UNITS. -/
theorem outputLines_length_bounds (u : EscUnits) (xs : List Byte) :
    128 * (outputLines (encodeCall u xs)).length ≤ xs.length + (u.count - 1) * escapedCount u 0#8 xs + 127 ∧
      xs.length + (u.count - 1) * escapedCount u 0#8 xs ≤
        (127 + u.count) * (outputLines (encodeCall u xs)).length := by
  rcases eq_or_ne xs [] with rfl | hxs
  · exact ⟨Nat.zero_le _, Nat.le_refl _⟩
  · have hunits : callUnits u 0#8 xs = xs.length + (u.count - 1) * escapedCount u 0#8 xs := by simp [callUnits]
    rw [← hunits]
    exact linesFrom_length_bounds u hxs [] (by decide)

theorem outputLines_length_eq_zero_iff (u : EscUnits) (xs : List Byte) :
    (outputLines (encodeCall u xs)).length = 0 ↔ xs = [] := by
  refine ⟨fun h => ?_, fun h => by rw [h]; rfl⟩
  obtain ⟨-, hhigh⟩ := outputLines_length_bounds u xs
  rw [h, Nat.mul_zero] at hhigh
  exact List.length_eq_zero_iff.mp (by omega)

/-- Settles O48: the number of lines lies between the bounds that their units give. -/
theorem outputLength : Obligations.OutputLength := by
  refine ⟨fun u xs => ⟨encodeCall_length u xs, outputLines_length_eq_zero_iff u xs, fun hxs => ?_⟩,
    fun xs hxs => ?_, fun xs => ?_, ?_⟩
  · have hlines := (outputLines_length_eq_zero_iff u xs).not.mpr hxs
    rw [encodeCall_length]
    omega
  · obtain ⟨hlow, -⟩ := outputLines_length_bounds .two xs
    have hescaped := escapedCount_le .two 0#8 xs
    have hpos := List.length_pos_iff.mpr hxs
    have hone : EscUnits.count .two - 1 = 1 := rfl
    rw [hone, Nat.one_mul] at hlow
    rw [encodeCall_length]
    omega
  · obtain ⟨hlow, hhigh⟩ := outputLines_length_bounds .one xs
    have hescaped := escapedCount_le .one 0#8 xs
    have hnone : EscUnits.count .one - 1 = 0 := rfl
    have hfull : 127 + EscUnits.count .one = 128 := rfl
    rw [hnone, Nat.zero_mul] at hlow hhigh
    rw [hfull] at hhigh
    rw [encodeCall_length]
    omega
  · have hescaped := escapedCount_replicate (b := 0xD6#8)
      (fun c => (needsEscape_shifted_iff _ c).mpr (.inl (by decide))) .two 0#8 65
    obtain ⟨hlow, hhigh⟩ := outputLines_length_bounds .two (List.replicate 65 0xD6#8)
    rw [hescaped, List.length_replicate] at hlow hhigh
    rw [encodeCall_length, hescaped, List.length_replicate]
    have htwo : EscUnits.count .two = 2 := rfl
    rw [htwo] at hlow hhigh
    omega

end Sys2Proof.Machine
end

section
/-! SUPPORT. The steps in which no command runs, arrival by arrival; then the exceptions family: the one stop of the
model, reset against a command, and idle steps (spec/60_exceptions.md). -/

namespace Sys2Proof.Machine

variable {s : State} {rest : List Arrival}

/-! ### Nothing stops but a command before the first reset (spec/60_exceptions.md R120, R122) -/

/-- Settles O37: the one stop is a command with no value in COL, which the duty rules out; a step keeps the duty, since
it serves no command or leaves a value in COL. -/
theorem safeStatesNeverStop : Obligations.SafeStatesNeverStop := by
  intro s hsafe
  obtain ⟨t, hstep⟩ := step_of_safe hsafe
  exact ⟨t, hstep, step_keeps_safe hstep hsafe⟩

/-- With no value in COL a command has no step. -/
theorem exec_none (hcol : s.col = none) (i : Instr) : exec i s = .fault .commandBeforeReset := by
  rw [exec_eq, encodeStep_none hcol]

/-- With no value in COL no command stalls, whatever the capacity of OUT. -/
theorem State.not_stalled_of_col_none (hcol : s.col = none) (i : Instr) : s.stalled i = false := by
  refine Bool.eq_false_iff.mpr fun hstall => ?_
  obtain ⟨_, _, -, hc, -⟩ := State.stalled_iff.mp hstall
  simp [hcol] at hc

/-- A command presented before the first reset is taken, and has no step. -/
theorem step_command_of_col_none {w : CmdWord} (hcol : s.col = none) (hin : s.input = .command w :: rest) :
    step s = .fault .commandBeforeReset := by
  refine (step_command hin (State.not_stalled_of_col_none hcol _)).trans (exec_none ?_ _)
  exact s.serveOutput_col.trans hcol

/-- Settles O32: `step_fault` names the one stop, and a command with no value in COL meets it. -/
theorem onlyAnUnresetBlockStops : Obligations.OnlyAnUnresetBlockStops := by
  refine fun s => ⟨⟨?_, ?_⟩, step_ne_refused s⟩
  · rintro ⟨f, hfault⟩
    exact (step_fault hfault).2
  · rintro ⟨hcol, w, rest, hin⟩
    exact ⟨_, step_command_of_col_none hcol hin⟩

/-- Settles O21. -/
theorem commandBeforeResetHasNoStep : Obligations.CommandBeforeResetHasNoStep :=
  fun _ hcol => ⟨exec_none hcol, fun _ _ hin => step_command_of_col_none hcol hin⟩

/-! ### Reset against a command (spec/60_exceptions.md R124) -/

/-- A reset is served after the host's part of the step, whether or not a command stands beside it. -/
theorem step_reset {a : Arrival} (ha : a = .reset ∨ ∃ w, a = .resetWithCommand w) (hin : s.input = a :: rest) :
    step s = .next { s.serveOutput.assertReset with input := rest } := by
  obtain rfl | ⟨w, rfl⟩ := ha
  · simp [step, State.fetch, hin]
  · simp [step, State.fetch, hin]

/-- The host's part of a step does not look at the arrivals. -/
theorem State.serveOutput_withInput (s : State) (arrivals : List Arrival) :
    ({ s with input := arrivals } : State).serveOutput = { s.serveOutput with input := arrivals } := by
  obtain ⟨_, out, _, _, _, _, outReady⟩ := s
  cases outReady with
  | nil => rfl
  | cons ready _ =>
    cases ready with
    | false => rfl
    | true => cases out <;> rfl

/-- Settles O23: both steps are the one of `step_reset`, and neither keeps its own arrival. -/
theorem resetWinsOverACommand : Obligations.ResetWinsOverACommand := by
  intro s w rest
  rw [step_reset (.inr ⟨w, rfl⟩) rfl, step_reset (.inl rfl) rfl,
    s.serveOutput_withInput (.resetWithCommand w :: rest), s.serveOutput_withInput (.reset :: rest)]
  rfl

/-! ### Idle steps (spec/60_exceptions.md R131) -/

/-- With nothing presented the step is the host's part alone. -/
theorem step_of_input_nil (hin : s.input = []) : step s = .next s.serveOutput := by
  simp [step, State.fetch, hin]

/-- An idle arrival leaves the input stream, and the rest of the step is the host's part. -/
theorem step_idle (hin : s.input = .idle :: rest) : step s = .next { s.serveOutput with input := rest } := by
  simp [step, State.fetch, hin]

/-- Settles O25: the host's part of a step, which is all of it, touches neither COL nor the call nor OUT_HIST. -/
theorem idleStepsKeepCol : Obligations.IdleStepsKeepCol := by
  rintro s (hnil | hidle)
  · refine ⟨_, step_of_input_nil hnil, s.serveOutput_col, s.serveOutput_callOpen, s.serveOutput_outHist, ?_⟩
    simp [hnil]
  · have hin : s.input = .idle :: s.input.tail := (List.cons_head?_tail hidle).symm
    exact ⟨_, step_idle hin, s.serveOutput_col, s.serveOutput_callOpen, s.serveOutput_outHist, rfl⟩

end Sys2Proof.Machine
end

section
/-! SUPPORT. How a bounded OUT drains while the host takes beats; then the reset family: progress of a presented
command, reset and the beats it keeps, power-on, and the call boundaries (spec/70_reset_and_hazards.md). -/

namespace Sys2Proof.Machine

variable {s t : State} {rest : List Arrival}

/-! ### A draining block takes its next command (spec/70_reset_and_hazards.md R147) -/

/-- An empty OUT with storage for four beats has room for every command, since none emits more (R66, D25). -/
theorem State.not_stalled_of_out_nil (hout : s.out = []) (hcap : ∀ n, s.outCapacity = some n → 4 ≤ n) (i : Instr) :
    s.stalled i = false := by
  refine Bool.eq_false_iff.mpr fun hstall => ?_
  obtain ⟨n, c, hn, -, hfull⟩ := State.stalled_iff.mp hstall
  obtain ⟨-, hmax⟩ := burst_length escUnits i.operand i.isLast c
  have hstorage := hcap n hn
  rw [hout, List.length_nil] at hfull
  omega

theorem stepMany_succ (h : step s = .next t) (k : Nat) : stepMany (k + 1) s = stepMany k t := by
  rw [stepMany, h]

section Drain

variable {w : CmdWord} (hcol : s.col.isSome = true) (hin : s.input = .command w :: rest)
include hcol hin

/-- A command that finds room is taken in one step. -/
theorem stepMany_one_takes_command (hroom : s.stalled (decode w) = false) :
    ∃ t, stepMany 1 s = .next t ∧ t.input = rest := by
  obtain ⟨c, hc⟩ := Option.isSome_iff_exists.mp hcol
  have hstep := (step_command hin hroom).trans (exec_some (s.serveOutput_col.trans hc))
  exact ⟨_, stepMany_succ hstep 0, rfl⟩

/-- Each step of a stall in which the host is ready takes one beat from OUT, so the command is taken at the latest once
OUT is empty. -/
theorem stepMany_takes_command {bs : List Beat} (hout : s.out = bs) (hcap : ∀ n, s.outCapacity = some n → 4 ≤ n)
    (hready : ∀ k, k < bs.length → s.outReady[k]? = some true) :
    ∃ k t, k ≤ bs.length + 1 ∧ stepMany k s = .next t ∧ t.input = rest := by
  induction bs generalizing s with
  | nil => exact ⟨1, (stepMany_one_takes_command hcol hin (State.not_stalled_of_out_nil hout hcap _)).imp
      fun _ ht => ⟨Nat.le_refl 1, ht⟩⟩
  | cons b bs ih =>
    cases hroom : s.stalled (decode w) with
    | false => exact ⟨1, (stepMany_one_takes_command hcol hin hroom).imp fun _ ht => ⟨Nat.le_add_left .., ht⟩⟩
    | true =>
      have hfirst : s.outReady.head? = some true := List.head?_eq_getElem?.trans (hready 0 (Nat.zero_lt_succ _))
      have hdrained : s.serveOutput.out = bs := by rw [s.serveOutput_out, if_pos hfirst, hout, List.tail_cons]
      have hstillReady : ∀ k, k < bs.length → s.serveOutput.outReady[k]? = some true := fun k hk => by
        rw [s.serveOutput_outReady, List.getElem?_tail]
        exact hready (k + 1) (Nat.succ_lt_succ hk)
      obtain ⟨k, t, hk, hrun, hrest⟩ := ih (s := s.serveOutput) (by rwa [s.serveOutput_col])
        (s.serveOutput_input.trans hin) hdrained (by rwa [s.serveOutput_outCapacity]) hstillReady
      exact ⟨k + 1, t, Nat.succ_le_succ hk, (stepMany_succ (step_stalled hin hroom) k).trans hrun, hrest⟩

end Drain

/-- Settles O40. -/
theorem drainedBlockTakesTheNextCommand : Obligations.DrainedBlockTakesTheNextCommand :=
  fun _ _ _ hcol hin hcap hready => stepMany_takes_command hcol hin rfl hcap hready

/-! ### Reset and power-on (spec/70_reset_and_hazards.md R140 to R144) -/

/-- Settles O22: a reset step is the host's part, which moves at most OUT's head, and then the reset, which touches
neither OUT nor the beats taken. -/
theorem resetClearsColAndKeepsTheBeats : Obligations.ResetClearsColAndKeepsTheBeats :=
  fun s _ _ hin ha => ⟨_, step_reset ha hin, rfl, rfl, s.serveOutput_outHist, rfl,
    fun hno => s.serveOutput_out.trans (if_neg hno), fun hyes => s.serveOutput_out.trans (if_pos hyes)⟩

/-- Settles O51: with the host not ready, its part of the reset step takes no beat. -/
theorem resetLeavesOutUnchanged : Obligations.ResetLeavesOutUnchanged :=
  fun s _ _ hin ha hno => ⟨_, step_reset ha hin, rfl, rfl, s.serveOutput_out.trans (if_neg hno),
    s.serveOutput_delivered.trans (if_neg hno), rfl⟩

/-- Settles O24: `step_reset` gives the step from power-on, and the rest are fields of the two states. -/
theorem oneResetAfterPowerOnIsEnough : Obligations.OneResetAfterPowerOnIsEnough :=
  ⟨rfl, rfl, rfl, step_reset (.inl rfl) rfl, rfl, rfl, rfl⟩

/-- Settles O26: reset writes 0 to COL, and `nextCol` of a last byte is 0; both close the call. -/
theorem callBoundariesHaveColZero : Obligations.CallBoundariesHaveColZero := by
  refine ⟨fun s => ⟨s.assertReset_col, s.assertReset_callOpen⟩, fun b s t h => ?_⟩
  obtain ⟨c, -, rfl⟩ := exec_next h
  exact ⟨congrArg some (nextCol_last escUnits b c), rfl⟩

/-- Settles O35: each conjunct of the invariant is computed, with COL 0 or no value, no call open and no beats. -/
theorem resetStateMeetsTheInvariant : Obligations.ResetStateMeetsTheInvariant :=
  ⟨⟨rfl, rfl, rfl, rfl⟩, rfl, rfl, rfl, rfl⟩

end Sys2Proof.Machine
end
